-- ==== Sys2Proof/Word.lean ====
section
/-! DEFINITION. The bit-vector types of the engine, every width fixed by R7 and R40. -/

namespace Sys2Proof

/-- An input byte, the unit of `ByteStep`: 8 bits (R7). -/
abbrev Byte := BitVec 8

/-- An input word, the operand of `WORD`: 16 bits (R7). -/
abbrev Word := BitVec 16

/-- The accumulator, a table entry, a result: 32 bits (R7, R11). -/
abbrev Acc := BitVec 32

/-- A command word of format `CMD18`: 18 bits (R40). -/
abbrev CmdWord := BitVec 18

end Sys2Proof
end

