-- ==== Sys2Proof/Syntax.lean ====
section
/-! DEFINITION. The commands of the opcode table, the ways a command word can be reserved, and the
assembler level: numeric source lines, word sequences and pseudo-instructions. -/

namespace Sys2Proof

/-- The three commands, one per row of the opcode table (R41, R50). -/
inductive Instr where
  /-- `CLR`: start a checksum (R59). -/
  | clr
  /-- `WORD w`: absorb one 16-bit word (R60). -/
  | word (w : Word)
  /-- `RD`: output the accumulator (R61). -/
  | rd
  deriving DecidableEq, Repr

/-- Why a command word is reserved (R44): the three classes of reserved words. -/
inductive Reserved where
  /-- `op = 00`, any data. -/
  | opZero (data : Word)
  /-- `op = 01` with data that is not zero. -/
  | clrWithData (data : Word)
  /-- `op = 11` with data that is not zero. -/
  | rdWithData (data : Word)
  deriving DecidableEq, Repr

/-- One row of the opcode map of R41: a command word belongs to the row when its masked bits equal
`pattern`. -/
structure OpcodeRow where
  mnemonic : String
  pattern : CmdWord
  mask : CmdWord
  deriving DecidableEq, Repr

/-- A command as an assembler sees it, its operand still a number of any size (R43). -/
inductive SourceCommand where
  | clr
  | word (operand : Int)
  | rd
  deriving DecidableEq, Repr

/-- The sequence forms of R9: a written list, `s*n`, and `s ++ t`. -/
inductive WordSeq where
  | lit (ws : List Word)
  | rep (s : WordSeq) (n : Nat)
  | cat (s t : WordSeq)
  deriving DecidableEq, Repr

/-- The two pseudo-instructions of R48. -/
inductive Pseudo where
  /-- `CRC32 [...]` (R70). -/
  | crc32 (ws : WordSeq)
  /-- `GOLDEN image, num_blocks, block_size` (R79). -/
  | golden (image : List Word) (numBlocks blockSize : Nat)
  deriving DecidableEq, Repr

/-- What one line of assembler text can hold (R47, R48). -/
inductive SourceLine where
  | command (c : SourceCommand)
  | pseudo (p : Pseudo)
  deriving DecidableEq, Repr

end Sys2Proof
end

