-- ==== Sys2Proof/WellFormed.lean ====
section
/-! DEFINITION. What well-formed means at each level. A command of `Instr` is well formed by its
type: all 2^16 operands are legal and none is special (R42). The checks that can fail stand at the
assembler level (R43) and at the host's level (R80, R99). -/

namespace Sys2Proof

/-- Every command of the abstract level is well formed (R42, R60: "All `2^16` operand values are
legal"). -/
def Instr.wellFormed : Instr → Bool
  | .clr => true
  | .word _ => true
  | .rd => true

/-- R43: an operand of `WORD` lies in 0..0xFFFF. -/
def SourceCommand.wellFormed : SourceCommand → Bool
  | .clr => true
  | .word n => decide (0 ≤ n) && decide (n ≤ 0xFFFF)
  | .rd => true

/-- R80: a golden table is asked for over an image of exactly `num_blocks*block_size` words, with
`num_blocks*block_size > 0`. `CRC32` takes a sequence of any length (R74). -/
def Pseudo.wellFormed : Pseudo → Bool
  | .crc32 _ => true
  | .golden image numBlocks blockSize =>
    decide (image.length = numBlocks * blockSize) && decide (0 < numBlocks * blockSize)

end Sys2Proof
end

