-- ==== Sys2Proof/Decode.lean ====
section
/-! DEFINITION. The command word: fields (R40), decoder (R45), encoder (R46), the opcode map as
mask and pattern (R41), and the reading of a word numbered as the opcode table numbers it. -/

namespace Sys2Proof

/-- `op = cmd[17:16]` (R40). -/
def opField (x : CmdWord) : BitVec 2 := x.extractLsb' 16 2

/-- `data = cmd[15:0]` (R40), used as it stands (R42). -/
def dataField (x : CmdWord) : Word := x.extractLsb' 0 16

/-- R45: the decoder, total on 18-bit words; a reserved word is refused by name (R44), never taken
for a command. -/
def decode (x : CmdWord) : Except Reserved Instr :=
  if opField x = 0b01#2 then
    if dataField x = 0x0000#16 then .ok .clr else .error (.clrWithData (dataField x))
  else if opField x = 0b10#2 then .ok (.word (dataField x))
  else if opField x = 0b11#2 then
    if dataField x = 0x0000#16 then .ok .rd else .error (.rdWithData (dataField x))
  else .error (.opZero (dataField x))

/-- R46: the command word of a command. -/
def encode : Instr → CmdWord
  | .clr => 0x10000#18
  | .word w => 0x20000#18 + w.setWidth 18
  | .rd => 0x30000#18

/-- The opcode map of R41, in its order. -/
def opcodeRows : List OpcodeRow :=
  [ ⟨"CLR", 0x10000#18, 0x3FFFF#18⟩,
    ⟨"WORD", 0x20000#18, 0x30000#18⟩,
    ⟨"RD", 0x30000#18, 0x3FFFF#18⟩ ]

/-- Whether a command word lies in a row of the opcode map. -/
def OpcodeRow.covers (r : OpcodeRow) (x : CmdWord) : Bool :=
  x &&& r.mask = r.pattern

/-- The number of 18-bit command `w` whose bits above `nbits` are zero, as the opcode table numbers
bits; none where it does not fit the 18-bit command port (R40; log 10). -/
def cmdOfTableWord (nbits w : Nat) : Option CmdWord :=
  if w % 2 ^ nbits < 2 ^ 18 then some (BitVec.ofNat 18 (w % 2 ^ nbits)) else none

/-- The decoder's reading of a word numbered as the opcode table numbers it; the block's command is
one 18-bit word on a port, so there are no bytes to lay out (R40, log 10). -/
def decodeTableWord (nbits w : Nat) : Option Instr :=
  match cmdOfTableWord nbits w with
  | none => none
  | some x =>
    match decode x with
    | .ok i => some i
    | .error _ => none

end Sys2Proof
end

