-- ==== Sys2Proof/Machine/Flags.lean ====
section
/-! DEFINITION. The engine has no condition flag and no status bit (R17), and no command writes one
(R64), so this file defines nothing: there is no flag computation in the spec. -/
end

