-- ==== Sys2Proof/Machine/Operands.lean ====
section
/-! DEFINITION. The one operand form of the command set: the 16-bit word of `WORD`, taken as it
stands (R42), and its two bytes in the order the engine consumes them (R26). -/

namespace Sys2Proof.Machine

/-- `lo(w) = w[7:0]`, the byte consumed first (R26). -/
def lo (w : Word) : Byte := w.extractLsb' 0 8

/-- `hi(w) = w[15:8]`, the byte consumed second (R26). -/
def hi (w : Word) : Byte := w.extractLsb' 8 8

/-- The byte sequence of a word sequence, each word's low byte first (R26, step 1 of the source's
algorithm). -/
def bytesOf : List Word → List Byte
  | [] => []
  | w :: ws => lo w :: hi w :: bytesOf ws

end Sys2Proof.Machine
end

