-- ==== Sys2Proof/Config.lean ====
section
/-! DEFINITION. The parameters of R8 that carry a value. The widths of R7 are in the types of
Word.lean; MAX_WORDS is unbounded (R74), so lists carry no limit. WORD_LATENCY, CMD_PORT_LOCATION
and RESULT_BUS_SPLIT are left open by R8, no rule depends on them, and 92_eei_decisions.md says the
model ignores them (log 3 and 12). Nothing in the arithmetic is open, so there is no free value here. -/

namespace Sys2Proof

/-- `POLY`: the generator polynomial, coefficients of x^31 down to x^0 (R2, R8, R13). -/
def Config.poly : Acc := 0x04C11DB7

/-- `ACC_INIT`: what `CLR` writes (R2, R8, R59). -/
def Config.accInit : Acc := 0x00000000

/-- `ACC_RESET`: what reset writes (R8, R19, R105). -/
def Config.accReset : Acc := 0x00000000

end Sys2Proof
end

