-- ==== Sys2Proof/Machine/State.lean ====
section
/-! DEFINITION. The state: the engine's one register, and beside it the two ends of its ports that
belong to the environment (what the host has still to present, what it has been given). `TABLE` is a
constant (Machine/Table.lean), not state (R12, R20). -/

namespace Sys2Proof.Machine

/-- What stands on the ports at one active clock edge (R52). `cmdReady` is the block's own output,
whose timing the spec does not fix (R115): it stands here as a free Bool of each edge (log 3). -/
structure PortEdge where
  /-- `rst`: reset is asserted (its active level is not fixed, U3). -/
  rst : Bool
  /-- `cmd_valid`: the host presents a command word. -/
  cmdValid : Bool
  /-- `cmd_ready`: the block can accept a command word now. -/
  cmdReady : Bool
  /-- `cmd`: the command word. -/
  cmd : CmdWord
  deriving DecidableEq, Repr

/-- The machine. Only `acc` is state of the block (R10, R17); `pending` and `results` are the
host's side, which no command reads (R20, R86; log 1 and 2). -/
structure State where
  /-- `ACC`, the block's one register (R10, R11). -/
  acc : Acc
  /-- The port edges the host has still to present, the next one first (R86). -/
  pending : List PortEdge
  /-- The outputs of the accepted `RD` commands, oldest first: each is one `rd_valid = 1` with this
  value on `rd_data` (R52, R86). -/
  results : List Acc
  deriving DecidableEq, Repr

/-- The exception causes. There are none: "the set of exception causes is empty" (R90), and R62 says
no step faults. Nobody raises one, so no claim rests on one: safe. -/
inductive Fault where
  deriving DecidableEq, Repr

/-- Why the machine gives a step no meaning. -/
inductive Refusal where
  /-- An arm of `exec` with no meaning yet; raised by no arm of this model. Safe. -/
  | notModelled (mnemonic : String)
  /-- A reserved command word is presented while reset is not asserted: raised by `deliver`, since
  the spec gives such a word no meaning (R44, R98, U1). Safe. -/
  | reservedCommand (why : Reserved)
  deriving DecidableEq, Repr

/-- The machine right after reset: `ACC = 0x00000000` (R19, R105). That the host has presented
nothing and been given nothing is the model's own start (log 6). -/
def State.reset : State := ⟨Config.accReset, [], []⟩

end Sys2Proof.Machine
end

