-- ==== Sys2Proof/Machine/Ops.lean ====
section
/-! DEFINITION. The shared operations: the byte step and the word step (R55, R58), their folds over
sequences (R71, R77), and the named updates of the state. The spec has no trap entry and no return
(R90, R94), so there is no operation that takes an exception; reset is the one event besides the
commands (R105). -/

namespace Sys2Proof.Machine

/-- `((a >> 24) XOR b) AND 0xFF`, an 8-bit value (R55, R56). -/
def tableIndex (a : Acc) (b : Byte) : Byte :=
  (((a >>> 24) ^^^ b.setWidth 32) &&& 0xFF#32).setWidth 8

/-- `ByteStep(a, b)` (R55). The mask after the shift is the 32-bit type's (R57). -/
def byteStep (a : Acc) (b : Byte) : Acc :=
  (a <<< 8) ^^^ table (tableIndex a b)

/-- `WordStep(a, w)`: the low byte first, the high byte second (R58). -/
def wordStep (a : Acc) (w : Word) : Acc :=
  byteStep (byteStep a (lo w)) (hi w)

/-- `Absorb(a, ws)`: the fold of `WordStep` over a sequence of any length (R77, R74). -/
def absorb : Acc → List Word → Acc
  | a, [] => a
  | a, w :: ws => absorb (wordStep a w) ws

/-- `CRC32(ws)`: the fold from the start value zero (R71). -/
def crc32 (ws : List Word) : Acc := absorb Config.accInit ws

/-- The bit-serial byte step given beside R63 as a cross-check: the byte is XORed into the top of
the accumulator and eight rounds of R13 follow. No meaning uses it. -/
def bitSerialStep (a : Acc) (b : Byte) : Acc :=
  shiftRounds 8 (a ^^^ (b.setWidth 32 <<< 24))

/-- Write all 32 bits of `ACC`; every access is to all of it at once (R18). -/
def State.setAcc (v : Acc) (s : State) : State := ⟨v, s.pending, s.results⟩

/-- Give a value to the host on `rd_data` with `rd_valid = 1` (R28, R52). -/
def State.present (v : Acc) (s : State) : State := ⟨s.acc, s.pending, s.results ++ [v]⟩

/-- The reset event: `ACC <- 0x00000000` and nothing else (R105). -/
def State.applyReset (s : State) : State := s.setAcc Config.accReset

/-- The host's stream with its first edge gone by. -/
def State.withPending (es : List PortEdge) (s : State) : State := ⟨s.acc, es, s.results⟩

end Sys2Proof.Machine
end

