-- ==== Sys2Proof/Machine/Commands.lean ====
section
/-! DEFINITION. The meaning of each command (R62). No command writes a flag or raises an exception
(R64), and every command is defined on every state. -/

namespace Sys2Proof.Machine

/-- `CLR` (R59): `ACC <- 0x00000000`; no output. -/
def execClr (s : State) : Host.Outcome State Fault Refusal :=
  .next (s.setAcc Config.accInit)

/-- `WORD w` (R60): both bytes of `w` are absorbed in one indivisible step (R31); no output. -/
def execWord (w : Word) (s : State) : Host.Outcome State Fault Refusal :=
  .next (s.setAcc (wordStep s.acc w))

/-- `RD` (R61): outputs all 32 bits of `ACC` as they stand and leaves `ACC` unchanged. -/
def execRd (s : State) : Host.Outcome State Fault Refusal :=
  .next (s.present s.acc)

end Sys2Proof.Machine
end

