-- ==== Sys2Proof/Machine/Dispatch.lean ====
section
/-! DEFINITION. One arm per command of the opcode table. -/

namespace Sys2Proof.Machine

def exec (i : Instr) (s : State) : Host.Outcome State Fault Refusal :=
  match i with
  | .clr => Sys2Proof.Machine.execClr s
  | .word w => Sys2Proof.Machine.execWord w s
  | .rd => Sys2Proof.Machine.execRd s

end Sys2Proof.Machine
end

