-- ==== Sys2Proof/Machine/Ports.lean ====
section
/-! DEFINITION. What one port edge does (R52, R93, R105), and how a command is put on the port. -/

namespace Sys2Proof.Machine

/-- The effect of one edge. Reset wins and `cmd` is ignored (R93). Without `cmd_valid` nothing
changes (R62). A reserved word that is presented is refused (R44, U1; log 4). A defined command is
accepted, and runs, exactly when `cmd_ready` is 1 too (R52); else nothing changes, and the host must
present it again. -/
def deliver (e : PortEdge) (s : State) : Host.Outcome State Fault Refusal :=
  if e.rst then .next s.applyReset
  else if e.cmdValid then
    match decode e.cmd with
    | .error why => .refused (.reservedCommand why)
    | .ok i => if e.cmdReady then exec i s else .next s
  else .next s

/-- The edge at which a command word is presented and accepted (R52). -/
def acceptedEdge (x : CmdWord) : PortEdge := ⟨false, true, true, x⟩

/-- The edge at which reset is requested and no command presented (R105). -/
def resetEdge : PortEdge := ⟨true, false, false, 0#18⟩

/-- The edge at which the host presents nothing (R62, R85). -/
def idleEdge : PortEdge := ⟨false, false, true, 0#18⟩

/-- The host presents these commands next, one per edge, in order (R33). -/
def State.presenting (is : List Instr) (s : State) : State :=
  s.withPending (is.map (fun i => acceptedEdge (encode i)) ++ s.pending)

end Sys2Proof.Machine
end

