-- ==== Sys2Proof/Machine/Step.lean ====
section
/-! DEFINITION. One step of the machine: the next edge of the host's stream. -/

namespace Sys2Proof.Machine

/-- The next edge is taken off the host's stream and delivered. With no edge left the host presents
nothing and the block holds its state: it never stops by itself (R62, R86; log 5). -/
def step (s : State) : Host.Outcome State Fault Refusal :=
  match s.pending with
  | [] => .next s
  | e :: es => deliver e (s.withPending es)

/-- The command word `w` presented and accepted at the very next edge, before the rest of the host's
stream (log 1); a number that does not fit the 18-bit port cannot be presented (log 10). -/
def State.withFetchWord (s : State) (nbits w : Nat) : State :=
  match cmdOfTableWord nbits w with
  | none => s
  | some x => s.withPending (acceptedEdge x :: s.pending)

end Sys2Proof.Machine
end

