-- ==== Sys2Proof/Machine/Transaction.lean ====
section
/-! DEFINITION. Sequences of commands at the abstract level (R50), the transaction (R70), and the
pseudo-instructions `CRC32` and `GOLDEN` with the host's use of the engine (R48, R79 to R81). -/

namespace Sys2Proof.Machine

/-- The commands of a list, accepted in order with nothing between them (R33, R86). -/
def runCommands : List Instr → State → Host.Outcome State Fault Refusal
  | [], s => .next s
  | i :: is, s =>
    match exec i s with
    | .next t => runCommands is t
    | .fault f => .fault f
    | .refused r => .refused r

/-- A transaction: `CLR`, one `WORD` per word, `RD` (R70). -/
def transaction (ws : List Word) : List Instr :=
  .clr :: (ws.map Instr.word ++ [.rd])

/-- The words of a sequence in the notation of R9. -/
def wordsOf : WordSeq → List Word
  | .lit ws => ws
  | .rep s n => (List.replicate n (wordsOf s)).flatten
  | .cat s t => wordsOf s ++ wordsOf t

/-- The words of data block `i`: the half-open slice `[i*block_size, (i+1)*block_size)` (R79). -/
def dataBlock (image : List Word) (blockSize i : Nat) : List Word :=
  (image.drop (i * blockSize)).take blockSize

/-- The data blocks of an image in increasing order (R79). -/
def dataBlocks (image : List Word) (numBlocks blockSize : Nat) : List (List Word) :=
  (List.range numBlocks).map (dataBlock image blockSize)

/-- The commands a pseudo-instruction expands to (R48). -/
def expand : Pseudo → List Instr
  | .crc32 ws => transaction (wordsOf ws)
  | .golden image n b => (dataBlocks image n b).flatMap transaction

/-- The expansion of a pseudo-instruction the host may use: a golden table over an image of another
length is the caller's contract violation, refused here because the block never sees it (R99, S6;
log 11). -/
def expandChecked (p : Pseudo) : Option (List Instr) :=
  if p.wellFormed then some (expand p) else none

/-- The golden table: value `i` is `CRC32` of data block `i` (R79). -/
def goldenTable (image : List Word) (numBlocks blockSize : Nat) : List Acc :=
  (dataBlocks image numBlocks blockSize).map crc32

end Sys2Proof.Machine
end

