-- ==== Sys2Proof/Machine/Assembler.lean ====
section
/-! DEFINITION. The assembler: numeric operands (R43), the text of one command a line (R47) and the
text of the pseudo-instructions (R48). Text is a list of characters. Which blanks may surround a token
is the model's choice (log 9). -/

namespace Sys2Proof.Machine

/-- Why a source line is rejected. -/
inductive AsmError where
  /-- A `WORD` operand outside 0..0xFFFF: rejected, never truncated (R43). -/
  | operandOutOfRange (n : Int)
  /-- A `WORD` operand that is not `0x` and exactly four upper-case hexadecimal digits (R47). -/
  | badNumeral
  /-- A `GOLDEN` over an image of another length than `num_blocks*block_size` (R80, R99). -/
  | badGolden
  /-- No line of a form that R47 or R48 gives. -/
  | badLine
  deriving DecidableEq, Repr

/-- A numeric source command to a command; an operand that does not fit is rejected (R43). -/
def assembleCommand (c : SourceCommand) : Except AsmError Instr :=
  match c with
  | .clr => .ok .clr
  | .word n =>
    if c.wellFormed then .ok (.word (BitVec.ofInt 16 n)) else .error (.operandOutOfRange n)
  | .rd => .ok .rd

/-- The value of a hexadecimal digit, `0` to `9` and upper-case `A` to `F` (R47). -/
def hexValue (c : Char) : Option Nat :=
  if 48 ≤ c.toNat ∧ c.toNat ≤ 57 then some (c.toNat - 48)
  else if 65 ≤ c.toNat ∧ c.toNat ≤ 70 then some (c.toNat - 55)
  else none

/-- The hexadecimal digit of a 4-bit value. -/
def hexDigit (v : BitVec 4) : Char :=
  if v.toNat < 10 then Char.ofNat (48 + v.toNat) else Char.ofNat (55 + v.toNat)

/-- `<value>`: `0x` followed by exactly four hexadecimal digits (R47). -/
def parseValue : List Char → Option Nat
  | ['0', 'x', a, b, c, d] =>
    match hexValue a, hexValue b, hexValue c, hexValue d with
    | some va, some vb, some vc, some vd => some (((va * 16 + vb) * 16 + vc) * 16 + vd)
    | _, _, _, _ => none
  | _ => none

/-- A decimal count, as in `[a, b]*26` (R48), `n` being the digits read so far. -/
def decimalFrom (n : Nat) : List Char → Option Nat
  | [] => some n
  | c :: cs =>
    if 48 ≤ c.toNat ∧ c.toNat ≤ 57 then decimalFrom (n * 10 + (c.toNat - 48)) cs else none

/-- A decimal count of at least one digit. -/
def parseDecimal (t : List Char) : Option Nat := if t = [] then none else decimalFrom 0 t

/-- A line up to its comment (R47). -/
def stripComment (line : List Char) : List Char := line.takeWhile (fun c => c != ';')

/-- The characters that are tokens by themselves: those of the sequence forms of R48. -/
def isPunctuation (c : Char) : Bool := c == '[' || c == ']' || c == ',' || c == '*'

/-- The token read so far, if any. -/
def pendingToken (cur : List Char) : List (List Char) := if cur = [] then [] else [cur]

/-- The tokens of a line, `cur` being the token read so far. -/
def tokensFrom (cur : List Char) : List Char → List (List Char)
  | [] => pendingToken cur
  | c :: cs =>
    if c = ' ' then pendingToken cur ++ tokensFrom [] cs
    else if isPunctuation c then pendingToken cur ++ [c] :: tokensFrom [] cs
    else tokensFrom (cur ++ [c]) cs

/-- A repetition count: `*` and a decimal number, and the tokens after it. -/
def parseCount : List (List Char) → Option (Nat × List (List Char))
  | star :: num :: after =>
    if star = ['*'] then (parseDecimal num).map (fun n => (n, after)) else none
  | _ => none

/-- What stands after a `[`: `]` at once, an empty list, or the list's elements, read by `elements`. -/
def parseBody (elements : List (List Char) → Option (WordSeq × List (List Char)))
    (ts : List (List Char)) : Option (WordSeq × List (List Char)) :=
  if ts.head? = some [']'] then some (.lit [], ts.tail) else elements ts

/-- One element of a list: a value or, inside the brackets too, a repetition `[a, b]*n` (R48), whose
own elements are read by `elements`. -/
def parseElement (elements : List (List Char) → Option (WordSeq × List (List Char))) :
    List (List Char) → Option (WordSeq × List (List Char))
  | [] => none
  | t :: rest =>
    if t = ['['] then
      match parseBody elements rest with
      | none => none
      | some (inner, after) => (parseCount after).map (fun c => (.rep inner c.1, c.2))
    else (parseValue t).map (fun n => (.lit [BitVec.ofNat 16 n], rest))

/-- The elements of a list whose `[` has been read, one at least, and the tokens after its `]`. Each
element takes a token, so the number of tokens is fuel enough. -/
def parseElements : Nat → List (List Char) → Option (WordSeq × List (List Char))
  | 0, _ => none
  | fuel + 1, ts =>
    match parseElement (parseElements fuel) ts with
    | none => none
    | some (_, []) => none
    | some (e, sep :: more) =>
      if sep = [']'] then some (e, more)
      else if sep = [','] then (parseElements fuel more).map (fun r => (.cat e r.1, r.2))
      else none

/-- A written list, possibly empty, and the tokens after it. -/
def parseList : List (List Char) → Option (WordSeq × List (List Char))
  | [] => none
  | t :: rest => if t = ['['] then parseBody (parseElements rest.length) rest else none

/-- A sequence in the notation of R48: a list, or a list with a repetition count after it as the
source writes `[a, b]*n` (log 9), and the tokens after it. -/
def parseSeq (ts : List (List Char)) : Option (WordSeq × List (List Char)) :=
  match parseList ts with
  | none => none
  | some (seq, after) =>
    if after.head? = some ['*'] then (parseCount after).map (fun c => (.rep seq c.1, c.2))
    else some (seq, after)

/-- The operand of `CRC32`: one sequence and nothing after it (R48). -/
def parseCrc32 (ts : List (List Char)) : Except AsmError Pseudo :=
  match parseSeq ts with
  | some (seq, []) => .ok (.crc32 seq)
  | _ => .error .badLine

/-- The operands of `GOLDEN`: an image, `num_blocks` and `block_size` (R48). -/
def parseGolden (ts : List (List Char)) : Except AsmError Pseudo :=
  match parseSeq ts with
  | some (seq, [[','], n, [','], b]) =>
    match parseDecimal n, parseDecimal b with
    | some n, some b => .ok (.golden (wordsOf seq) n b)
    | _, _ => .error .badLine
  | _ => .error .badLine

/-- The tokens of a line to a source line, or to none for a line that holds only a comment (R47,
R48). -/
def parseTokens : List (List Char) → Except AsmError (Option SourceLine)
  | [] => .ok none
  | head :: rest =>
    if head = ['C', 'L', 'R'] then
      (if rest = [] then .ok (some (.command .clr)) else .error .badLine)
    else if head = ['R', 'D'] then
      (if rest = [] then .ok (some (.command .rd)) else .error .badLine)
    else if head = ['W', 'O', 'R', 'D'] then
      match rest with
      | [v] =>
        match parseValue v with
        | some n => .ok (some (.command (.word n)))
        | none => .error .badNumeral
      | _ => .error .badLine
    else if head = ['C', 'R', 'C', '3', '2'] then
      match parseCrc32 rest with
      | .ok p => .ok (some (.pseudo p))
      | .error e => .error e
    else if head = ['G', 'O', 'L', 'D', 'E', 'N'] then
      match parseGolden rest with
      | .ok p => .ok (some (.pseudo p))
      | .error e => .error e
    else .error .badLine

/-- One line of text to a source line. -/
def parseLine (line : List Char) : Except AsmError (Option SourceLine) :=
  parseTokens (tokensFrom [] (stripComment line))

/-- The commands of a source line: one for a command, the expansion for a pseudo-instruction. -/
def assembleSource : SourceLine → Except AsmError (List Instr)
  | .command c =>
    match assembleCommand c with
    | .ok i => .ok [i]
    | .error e => .error e
  | .pseudo p =>
    match expandChecked p with
    | some is => .ok is
    | none => .error .badGolden

/-- One line of text to its commands, none for a line that holds only a comment. -/
def assembleLine (line : List Char) : Except AsmError (List Instr) :=
  match parseLine line with
  | .error e => .error e
  | .ok none => .ok []
  | .ok (some l) => assembleSource l

/-- A program, line by line, to its commands; the first bad line rejects it. -/
def assemble : List (List Char) → Except AsmError (List Instr)
  | [] => .ok []
  | line :: lines =>
    match assembleLine line with
    | .error e => .error e
    | .ok is =>
      match assemble lines with
      | .error e => .error e
      | .ok js => .ok (is ++ js)

/-- The text of a 16-bit value (R47). -/
def renderValue (w : Word) : List Char :=
  ['0', 'x', hexDigit (w.extractLsb' 12 4), hexDigit (w.extractLsb' 8 4),
    hexDigit (w.extractLsb' 4 4), hexDigit (w.extractLsb' 0 4)]

/-- The text of a command (R47). -/
def renderLine : Instr → List Char
  | .clr => ['C', 'L', 'R']
  | .word w => ['W', 'O', 'R', 'D', ' '] ++ renderValue w
  | .rd => ['R', 'D']

/-- The text of the elements of a list (R48). -/
def renderItems : List Word → List Char
  | [] => []
  | [w] => renderValue w
  | w :: ws => renderValue w ++ [',', ' '] ++ renderItems ws

/-- The text of `CRC32` over a written list (R48). -/
def renderCrc32 (ws : List Word) : List Char :=
  ['C', 'R', 'C', '3', '2', ' ', '['] ++ renderItems ws ++ [']']

/-- A sequence whose every written list has an element, so that its text has one between any two
commas. The empty list is written `[]` (`renderCrc32`). -/
def hasElements : WordSeq → Bool
  | .lit ws => !ws.isEmpty
  | .rep s _ => hasElements s
  | .cat s t => hasElements s && hasElements t

/-- The text of a sequence as the elements of a list, a repetition being one element (R48). -/
def renderElements : WordSeq → List Char
  | .lit ws => renderItems ws
  | .rep s n => ['['] ++ renderElements s ++ [']', '*'] ++ Nat.toDigits 10 n
  | .cat s t => renderElements s ++ [',', ' '] ++ renderElements t

/-- The text of `CRC32` over a list of such elements (R48). -/
def renderCrc32Elements (seq : WordSeq) : List Char :=
  ['C', 'R', 'C', '3', '2', ' ', '['] ++ renderElements seq ++ [']']

end Sys2Proof.Machine
end

