-- ==== Sys2Proof/Machine/System.lean ====
section
/-! DEFINITION. Several engines side by side (R82, R97): each has its own `ACC`, they share only the
constant table, and a schedule says which engine accepts which command next (log 14). -/

namespace Sys2Proof.Machine

/-- Engine `k` accepts a command; the others hold their state. None where there is no engine `k`. -/
def issueOn (k : Nat) (i : Instr) (es : List State) : Option (List State) :=
  match es[k]? with
  | none => none
  | some s =>
    match exec i s with
    | .next t => some (es.set k t)
    | .fault _ => none
    | .refused _ => none

/-- A schedule of commands, each for one engine, in the order they are accepted. -/
def runSchedule : List (Nat × Instr) → List State → Option (List State)
  | [], es => some es
  | (k, i) :: rest, es =>
    match issueOn k i es with
    | none => none
    | some es' => runSchedule rest es'

/-- The commands a schedule gives to engine `k`, in order. -/
def commandsFor (k : Nat) (schedule : List (Nat × Instr)) : List Instr :=
  (schedule.filter (fun c => c.1 == k)).map Prod.snd

end Sys2Proof.Machine
end

