-- ==== Sys2Proof/Safety.lean ====
section
/-! DEFINITION. The terms claims use: which edges do what, the host's duty to present only defined
words (R98), and the account of `ACC` and of the outputs by the accepted commands alone (R33). -/

namespace Sys2Proof.Machine

/-- The command accepted at an edge: reset not asserted, `cmd_valid` and `cmd_ready` both 1, and a
defined word on `cmd` (R52). -/
def PortEdge.accepts (e : PortEdge) : Option Instr :=
  if !e.rst && e.cmdValid && e.cmdReady then
    match decode e.cmd with
    | .ok i => some i
    | .error _ => none
  else none

/-- A reserved command word as R44 lists them, by number. -/
def IsReservedWord (x : CmdWord) : Prop :=
  x.toNat < 0x10000 ∨ (0x10000 < x.toNat ∧ x.toNat < 0x20000) ∨ 0x30000 < x.toNat

/-- The host keeps its contract: every word it presents while reset is not asserted is a defined
one (R44, R85, R98). -/
def State.HostKeepsContract (s : State) : Prop :=
  ∀ e ∈ s.pending, e.rst = false → e.cmdValid = true → ¬ IsReservedWord e.cmd

/-- What one edge does to the words absorbed since the last `CLR` or reset. -/
def sinceClear (ws : List Word) (e : PortEdge) : List Word :=
  if e.rst then []
  else
    match e.accepts with
    | some .clr => []
    | some (.word w) => ws ++ [w]
    | some .rd => ws
    | none => ws

/-- The words absorbed by a stream since its last `CLR` or reset, or since its start. -/
def wordsSinceClear (stream : List PortEdge) : List Word := stream.foldl sinceClear []

/-- The checksums the `RD` commands of a stream are owed, `ws` having been absorbed before it: each
that of the words absorbed since the last `CLR` or reset (R33, R75). -/
def owedResults (ws : List Word) : List PortEdge → List Acc
  | [] => []
  | e :: es =>
    (if e.accepts = some .rd then [crc32 ws] else []) ++ owedResults (sinceClear ws e) es

/-- The state is accounted for by the host's stream: the stream is a part already presented followed
by what is still pending, `ACC` is the checksum of the words absorbed since the last `CLR` or reset
of the presented part, and the outputs are exactly those its `RD` commands are owed (R33). -/
def State.AccountedBy (stream : List PortEdge) (s : State) : Prop :=
  ∃ done, stream = done ++ s.pending ∧ s.acc = crc32 (wordsSinceClear done) ∧
    s.results = owedResults [] done

end Sys2Proof.Machine
end

