-- ==== Sys2Proof/Certificates/Slice0/Obligations.lean ====
section
/-! DEFINITION. The statements for the provers, in the order of the spec's files: reset and state, the
table, the encoding, the commands, the ports, transactions, the host. -/

open Sys2Proof Sys2Proof.Machine

/-! ## State and reset -/

/-- R19: after reset `ACC = 0x00000000`, and words issued directly after reset give the same result as
words issued after `CLR`. -/
def Obligations.ResetStateHasAccZeroLikeClr : Prop :=
  State.reset.acc = 0x00000000#32 ∧
  ∀ ws : List Word,
    runCommands (ws.map Instr.word ++ [.rd]) State.reset =
      runCommands (.clr :: (ws.map Instr.word ++ [.rd])) State.reset

/-- R105: the reset event writes zero to `ACC`, the same as `CLR`, and changes nothing else; its edge
is gone by. -/
def Obligations.ResetEventWritesZeroLikeClr : Prop :=
  ∀ (s : State) (e : PortEdge) (es : List PortEdge), s.pending = e :: es → e.rst = true →
    step s = .next ⟨0x00000000#32, es, s.results⟩ ∧ step s = exec .clr ⟨s.acc, es, s.results⟩

/-- R93: at most one command is accepted at a time (a step takes at most one edge), and when reset
coincides with a presented command, reset wins: what is on the command port makes no difference. -/
def Obligations.ResetBeatsASimultaneousCommand : Prop :=
  (∀ s t : State, step s = .next t → t.pending = s.pending.tail) ∧
  ∀ (a : Acc) (es : List PortEdge) (out : List Acc) (valid ready valid' ready' : Bool)
    (cmd cmd' : CmdWord),
    step ⟨a, ⟨true, valid, ready, cmd⟩ :: es, out⟩ =
        step ⟨a, ⟨true, valid', ready', cmd'⟩ :: es, out⟩ ∧
      step ⟨a, ⟨true, valid, ready, cmd⟩ :: es, out⟩ = .next ⟨0x00000000#32, es, out⟩

/-- R106: a reset between two runs of words discards the words absorbed before it, whatever is on the
command port at its edge: the `RD` that follows gives the checksum of the later words alone. -/
def Obligations.ResetMidTransactionDiscardsWords : Prop :=
  ∀ (s : State) (xs ys : List Word) (valid ready : Bool) (cmd : CmdWord),
    Host.Core.run Sys2Proof.core (xs.length + 1 + (ys.length + 1))
      ⟨s.acc,
        xs.map (fun w => acceptedEdge (encode (.word w))) ++ ⟨true, valid, ready, cmd⟩ ::
          (ys.map (fun w => acceptedEdge (encode (.word w))) ++
            acceptedEdge (encode .rd) :: s.pending),
        s.results⟩ =
      .next ⟨crc32 ys, s.pending, s.results ++ [crc32 ys]⟩

/-- R18 as a frame: no command touches the host's stream; `RD` leaves `ACC` as it is; `CLR` and `WORD`
give no output, `RD` gives exactly one; and the new `ACC` depends on nothing but the old `ACC` and the
command. -/
def Obligations.CommandsChangeOnlyTheirOwn : Prop :=
  ∀ (i : Instr) (s t : State), exec i s = .next t →
    t.pending = s.pending ∧
    (i = .rd → t.acc = s.acc ∧ t.results = s.results ++ [s.acc]) ∧
    (i ≠ .rd → t.results = s.results) ∧
    (∀ s' t' : State, s'.acc = s.acc → exec i s' = .next t' → t'.acc = t.acc)

/-- 60_exceptions.md section 1: the complete list of events that change the block's state is an
accepted `CLR`, an accepted `WORD`, and reset. -/
def Obligations.OnlyClrWordAndResetChangeAcc : Prop :=
  ∀ s t : State, step s = .next t → t.acc ≠ s.acc →
    ∃ e es, s.pending = e :: es ∧
      (e.rst = true ∨
        (e.rst = false ∧ e.cmdValid = true ∧ e.cmdReady = true ∧
          (e.cmd.toNat = 0x10000 ∨ (0x20000 ≤ e.cmd.toNat ∧ e.cmd.toNat ≤ 0x2FFFF))))

/-- The outputs given so far are no hidden state (R17, R21): with other outputs before it, a step does
the same, and appends the same. -/
def Obligations.EarlierOutputsDoNotMatter : Prop :=
  ∀ (a : Acc) (es : List PortEdge) (old old' : List Acc),
    (∀ t, step ⟨a, es, old⟩ = .next t →
      ∃ new, t.results = old ++ new ∧ step ⟨a, es, old'⟩ = .next ⟨t.acc, t.pending, old' ++ new⟩) ∧
    (∀ r, step ⟨a, es, old⟩ = .refused r → step ⟨a, es, old'⟩ = .refused r)

/-! ## The table -/

/-- 10_state.md section 3: every entry of the listing is the one the generation procedure gives
(supplied by the spec from general knowledge, G1 and G2; log 8). -/
def Obligations.TableEqualsGeneratedTable : Prop :=
  ∀ i : Byte, table i = generatedEntry i

/-- 10_state.md section 3: `TABLE` is linear over XOR, and entry 0 is zero. -/
def Obligations.TableIsLinearOverXor : Prop :=
  table 0#8 = 0#32 ∧ ∀ i j : Byte, table (i ^^^ j) = table i ^^^ table j

/-- 10_state.md section 3, the transcription checks: distinct entries, three named entries, the XOR
and the sums, and the top and low bytes as permutations. -/
def Obligations.TableTranscriptionChecks : Prop :=
  tableEntries.Nodup ∧ tableEntries.length = 256 ∧
  table 0#8 = 0x00000000#32 ∧ table 1#8 = 0x04C11DB7#32 ∧ table 255#8 = 0xB1F740B4#32 ∧
  tableEntries.foldl (· ^^^ ·) 0#32 = 0#32 ∧
  tableEntries.foldl (· + ·) 0#32 = 0xFFFFFF80#32 ∧
  (∀ q ∈ [0, 64, 128, 192],
    ((tableEntries.drop q).take 64).foldl (· + ·) 0#32 = 0xFFFFFFE0#32) ∧
  (tableEntries.zipIdx.map (fun p => BitVec.ofNat 32 (p.2 + 1) * p.1)).foldl (· + ·) 0#32 =
    0x4FFFBFC0#32 ∧
  (tableEntries.map (fun v => v.toNat / 2 ^ 24)).Nodup ∧
  (tableEntries.map (fun v => v.toNat % 2 ^ 8)).Nodup

/-! ## The encoding -/

/-- R46: the three encodings, and decoding and encoding are inverse to each other. -/
def Obligations.EncodeAndDecodeAreInverse : Prop :=
  encode .clr = 0x10000#18 ∧ encode .rd = 0x30000#18 ∧
  (∀ w : Word, (encode (.word w)).toNat = 0x20000 + w.toNat) ∧
  (∀ i : Instr, decode (encode i) = .ok i) ∧
  (∀ (x : CmdWord) (i : Instr), decode x = .ok i → encode i = x)

/-- R41: the opcode map. -/
def Obligations.DecoderFollowsTheOpcodeMap : Prop :=
  ∀ x : CmdWord,
    (decode x = .ok .clr ↔ x.extractLsb' 16 2 = 0b01#2 ∧ x.extractLsb' 0 16 = 0#16) ∧
    (∀ w : Word, decode x = .ok (.word w) ↔ x.extractLsb' 16 2 = 0b10#2 ∧ w = x.extractLsb' 0 16) ∧
    (decode x = .ok .rd ↔ x.extractLsb' 16 2 = 0b11#2 ∧ x.extractLsb' 0 16 = 0#16) ∧
    ((∀ i, decode x ≠ .ok i) → ∃ why, decode x = .error why)

/-- R44: the reserved words are `0x00000` to `0x0FFFF`, `0x10001` to `0x1FFFF` and `0x30001` to
`0x3FFFF`, 196606 in all; the decoder refuses exactly these. -/
def Obligations.DecoderRefusesExactlyTheReservedWords : Prop :=
  (∀ x : CmdWord, (∃ why, decode x = .error why) ↔
    (x.toNat ≤ 0x0FFFF ∨ (0x10001 ≤ x.toNat ∧ x.toNat ≤ 0x1FFFF) ∨ 0x30001 ≤ x.toNat)) ∧
  ((List.range (2 ^ 18)).countP (fun n =>
    match decode (BitVec.ofNat 18 n) with
    | .ok _ => false
    | .error _ => true)) = 196606

/-- 95_test_vectors.md, family encoding: command words written out from the format decode to what they
stand for, and the table numbering gives the same. -/
def Obligations.WrittenOutWordsDecode : Prop :=
  decode 0b010000000000000000#18 = .ok .clr ∧
  decode 0b100000000001100001#18 = .ok (.word 0x0061#16) ∧
  decode 0b101111111111111111#18 = .ok (.word 0xFFFF#16) ∧
  decode 0b110000000000000000#18 = .ok .rd ∧
  decode 0b010000000000000001#18 = .error (.clrWithData 0x0001#16) ∧
  decode 0b110000000000000001#18 = .error (.rdWithData 0x0001#16) ∧
  decode 0b000000000000000000#18 = .error (.opZero 0x0000#16) ∧
  decodeTableWord 24 0x21234 = some (.word 0x1234#16)

/-! ## The byte step -/

/-- R55 and R57: `ByteStep` as the source writes it, over natural numbers with its two masks; and the
masked shift is `a[23:0]` followed by eight zero bits. -/
def Obligations.ByteStepIsTheSourceFormula : Prop :=
  ∀ (a : Acc) (b : Byte),
    (byteStep a b).toNat =
      ((a.toNat <<< 8) &&& 0xFFFFFFFF) ^^^
        (table (BitVec.ofNat 8 (((a.toNat >>> 24) ^^^ b.toNat) &&& 0xFF))).toNat ∧
    (a.toNat <<< 8) &&& 0xFFFFFFFF = (a.extractLsb' 0 24 ++ 0x00#8).toNat

/-- 40_commands.md section 2: bit for bit, the index is the top byte of the accumulator XOR the byte,
with no bit reversed. -/
def Obligations.TableIndexIsTopByteXorByte : Prop :=
  ∀ (a : Acc) (b : Byte) (k : Nat), k < 8 →
    (tableIndex a b).getLsbD k = (a.getLsbD (24 + k) ^^ b.getLsbD k)

/-- 40_commands.md section 2, the bit-serial form offered as a cross-check (general knowledge, G3). -/
def Obligations.ByteStepIsBitSerial : Prop :=
  ∀ (a : Acc) (b : Byte), byteStep a b = bitSerialStep a b

/-- 10_state.md section 2, the note: for a fixed byte, `ByteStep` is a bijection on the 32-bit
values. -/
def Obligations.ByteStepIsBijective : Prop :=
  ∀ b : Byte, Function.Bijective (fun a : Acc => byteStep a b)

/-- 10_state.md section 2, the note: every value of `ACC` is what `CLR` and exactly one two-word
sequence leave, from any state. -/
def Obligations.EveryAccIsReachedByOneTwoWordSequence : Prop :=
  ∀ (s : State) (v : Acc), ∃! p : Word × Word,
    runCommands [.clr, .word p.1, .word p.2] s = .next ⟨v, s.pending, s.results⟩

/-- R26: each word is consumed as two bytes, the low byte first, so `N` words are the `2N` bytes
`lo(w0), hi(w0), lo(w1), hi(w1), ...`, absorbed in that order. -/
def Obligations.WordsAreAbsorbedLowByteFirst : Prop :=
  ∀ (a : Acc) (ws : List Word),
    bytesOf ws = ws.flatMap (fun w => [w.extractLsb' 0 8, w.extractLsb' 8 8]) ∧
    (bytesOf ws).length = 2 * ws.length ∧
    absorb a ws = (bytesOf ws).foldl byteStep a

/-! ## The commands -/

/-- R59. -/
def Obligations.ClrZeroesAccAndGivesNoOutput : Prop :=
  encode .clr = 0x10000#18 ∧
  ∀ s : State, exec .clr s = .next ⟨0x00000000#32, s.pending, s.results⟩

/-- R60: `WORD w` in every state and for every operand, and that an accepted one is one step of the
machine, so nothing can happen between its two byte steps. -/
def Obligations.WordAbsorbsBothBytesInOneStep : Prop :=
  ∀ (w : Word) (s : State),
    encode (.word w) = 0x20000#18 + w.setWidth 18 ∧
    exec (.word w) s =
      .next ⟨byteStep (byteStep s.acc (w.extractLsb' 0 8)) (w.extractLsb' 8 8),
        s.pending, s.results⟩ ∧
    ∀ es : List PortEdge, s.pending = acceptedEdge (0x20000#18 + w.setWidth 18) :: es →
      step s =
        .next ⟨byteStep (byteStep s.acc (w.extractLsb' 0 8)) (w.extractLsb' 8 8), es, s.results⟩

/-- R61: `RD` outputs `ACC` and leaves it; a second `RD` gives the same value; `WORD` continues as if
the `RD` had not happened. -/
def Obligations.RdOutputsAccAndLeavesIt : Prop :=
  encode .rd = 0x30000#18 ∧
  ∀ s : State,
    exec .rd s = .next ⟨s.acc, s.pending, s.results ++ [s.acc]⟩ ∧
    runCommands [.rd, .rd] s = .next ⟨s.acc, s.pending, s.results ++ [s.acc, s.acc]⟩ ∧
    ∀ ws : List Word,
      runCommands (.rd :: ws.map Instr.word) s =
        .next ⟨absorb s.acc ws, s.pending, s.results ++ [s.acc]⟩

/-- R62: the step function of the block, total on every state and command; and at an edge at which the
host presents no command the state does not change. -/
def Obligations.EveryCommandIsDefinedOnEveryState : Prop :=
  (∀ (i : Instr) (s : State), exec i s =
    .next
      ⟨match i with
        | .clr => 0x00000000#32
        | .word w => wordStep s.acc w
        | .rd => s.acc,
      s.pending,
      match i with
        | .clr => s.results
        | .word _ => s.results
        | .rd => s.results ++ [s.acc]⟩) ∧
  (∀ (s : State) (e : PortEdge) (es : List PortEdge), s.pending = e :: es → e.rst = false →
    e.cmdValid = false → step s = .next ⟨s.acc, es, s.results⟩)

/-- With no edge left in the host's stream a step answers the same state. This is the model's reading
of "while the host presents no command the block's state does not change" (log 5): the spec has no
step without a command. -/
def Obligations.StepWithNoEdgeLeftHoldsTheState : Prop :=
  ∀ s : State, s.pending = [] → step s = .next s

/-! ## The ports -/

/-- R52: at an edge at which reset is not asserted and `cmd_valid` and `cmd_ready` are 1, the command
on `cmd` is accepted: the step is that command's, on the state with the edge gone by. -/
def Obligations.StepRunsTheDecodedCommand : Prop :=
  ∀ (s : State) (e : PortEdge) (es : List PortEdge) (i : Instr), s.pending = e :: es →
    e.rst = false → e.cmdValid = true → e.cmdReady = true → decode e.cmd = .ok i →
    step s = exec i ⟨s.acc, es, s.results⟩

/-- R52: a defined command presented while `cmd_ready` is 0 is not accepted and nothing changes. -/
def Obligations.CommandNotAcceptedHasNoEffect : Prop :=
  ∀ (s : State) (e : PortEdge) (es : List PortEdge) (i : Instr), s.pending = e :: es →
    e.rst = false → e.cmdValid = true → e.cmdReady = false → decode e.cmd = .ok i →
    step s = .next ⟨s.acc, es, s.results⟩

/-- The machine never faults, and stops exactly where a reserved word is presented while reset is not
asserted. That it stops at a reserved word presented with `cmd_ready` 0 too is the model's choice
(log 4). -/
def Obligations.StepStopsOnlyAtAReservedWord : Prop :=
  ∀ s : State,
    ((∃ t, step s = .next t) ∨ (∃ why, step s = .refused (.reservedCommand why))) ∧
    ((∃ r, step s = .refused r) ↔
      ∃ e es, s.pending = e :: es ∧ e.rst = false ∧ e.cmdValid = true ∧ IsReservedWord e.cmd)

/-- The block never stops by itself: with a host that presents only defined words, a run of any
length answers a next state, one edge further on with each step. -/
def Obligations.KeptContractNeverStops : Prop :=
  ∀ (n : Nat) (s : State), s.HostKeepsContract →
    ∃ t, Host.Core.run Sys2Proof.core n s = .next t ∧ t.pending = s.pending.drop n

/-- R50: command words presented on the port, one per edge, run as the commands do at the abstract
level. -/
def Obligations.PresentedWordsRunAsCommands : Prop :=
  ∀ (is : List Instr) (s : State),
    Host.Core.run Sys2Proof.core is.length (s.presenting is) = runCommands is s

/-- The ordering rule as an invariant: wherever a stream has got to, `ACC` and the outputs are those
the commands accepted since the last `CLR` or reset determine, in their order. Every step keeps it. -/
def Obligations.StepKeepsStateAccountedFor : Prop :=
  ∀ (stream : List PortEdge) (s t : State), s.AccountedBy stream → step s = .next t →
    t.AccountedBy stream

/-- The invariant holds at reset, whatever the host is going to present. -/
def Obligations.ResetStateIsAccountedFor : Prop :=
  ∀ stream : List PortEdge, (State.reset.withPending stream).AccountedBy stream

/-! ## Transactions -/

/-- R71: the result of a transaction over `ws` is `CRC32(ws)`, from any state before its `CLR`; the
left fold of `WordStep` from zero, and on bytes the fold of `ByteStep`. -/
def Obligations.TransactionReturnsCrc32 : Prop :=
  ∀ (ws : List Word) (s : State),
    runCommands (.clr :: (ws.map Instr.word ++ [.rd])) s =
      .next ⟨crc32 ws, s.pending, s.results ++ [crc32 ws]⟩ ∧
    crc32 ws = ws.foldl wordStep 0x00000000#32 ∧
    crc32 ws =
      (ws.flatMap (fun w => [w.extractLsb' 0 8, w.extractLsb' 8 8])).foldl byteStep 0x00000000#32

/-- R73: the result depends only on the words, not on the state before, nor on transactions run
before. -/
def Obligations.TransactionResultIgnoresThePast : Prop :=
  ∀ (ws : List Word) (before : List Instr) (s s' : State),
    ∃ t t' v, runCommands (before ++ transaction ws) s = .next t ∧
      runCommands (transaction ws) s' = .next t' ∧
      t.results.getLast? = some v ∧ t'.results.getLast? = some v

/-- 00_scope.md R3: the five reference vectors of section 8 of the source. -/
def Obligations.FiveReferenceVectors : Prop :=
  crc32 [0x0061#16, 0x0062#16, 0x0063#16, 0x0064#16] = 0x4BEAB53B#32 ∧
  crc32 (wordsOf (.rep (.lit [0xFFFF#16]) 26)) = 0x202A22E4#32 ∧
  crc32 (wordsOf (.rep (.lit [0x0001#16, 0x0002#16]) 13)) = 0x39220EDB#32 ∧
  crc32 (wordsOf (.rep (.lit [0x0003#16, 0x0004#16]) 13)) = 0xC06A3CD3#32 ∧
  crc32 (wordsOf (.rep (.lit [0x0005#16, 0x0006#16]) 13)) = 0xEAC1F2EA#32

/-- 41_transactions.md section 2, prefix read: an `RD` inside a sequence returns the checksum of the
words so far, and the later words continue from the same accumulator. -/
def Obligations.PrefixReadReturnsPrefixChecksum : Prop :=
  ∀ (xs ys : List Word) (s : State),
    runCommands (transaction xs ++ (ys.map Instr.word ++ [.rd])) s =
      .next ⟨crc32 (xs ++ ys), s.pending, s.results ++ [crc32 xs, crc32 (xs ++ ys)]⟩

/-- 41_transactions.md section 2: leading zero words are invisible. -/
def Obligations.LeadingZeroWordsAreInvisible : Prop :=
  ∀ (k : Nat) (ws : List Word),
    crc32 (List.replicate k 0x0000#16 ++ ws) = crc32 ws ∧
    crc32 (List.replicate k 0x0000#16) = 0x00000000#32

/-- 41_transactions.md section 2, chaining. -/
def Obligations.AbsorptionChains : Prop :=
  ∀ (a : Acc) (xs ys : List Word),
    absorb a (xs ++ ys) = absorb (absorb a xs) ys ∧
    crc32 (xs ++ ys) = absorb (crc32 xs) ys

/-- 41_transactions.md section 2: the checksum is linear over the word-by-word XOR of two sequences
of one length. -/
def Obligations.ChecksumIsLinearOverXor : Prop :=
  ∀ xs ys : List Word, xs.length = ys.length →
    crc32 (List.zipWith (· ^^^ ·) xs ys) = crc32 xs ^^^ crc32 ys

/-- 41_transactions.md section 2, residue (general knowledge, G4): appending the checksum, its most
significant byte first, gives zero. -/
def Obligations.AppendingTheChecksumGivesZero : Prop :=
  ∀ ws : List Word,
    crc32 (ws ++
      [((crc32 ws).extractLsb' 24 8).setWidth 16 |||
          (((crc32 ws).extractLsb' 16 8).setWidth 16 <<< 8),
        ((crc32 ws).extractLsb' 8 8).setWidth 16 |||
          (((crc32 ws).extractLsb' 0 8).setWidth 16 <<< 8)]) = 0x00000000#32

/-- 10_state.md section 3 with the definition of `CRC32`: read as a polynomial over GF(2), its bytes
in stream order with bit 7 first, the message times `x^32` leaves the checksum as its remainder modulo
`x^32 + x^26 + x^23 + x^22 + x^16 + x^12 + x^11 + x^10 + x^8 + x^7 + x^5 + x^4 + x^2 + x + 1`
(general knowledge for the meaning of the table, G1). -/
def Obligations.ChecksumIsPolynomialRemainder : Prop :=
  ∀ ws : List Word,
    (∑ k ∈ Finset.range 32,
        if (crc32 ws).getLsbD k then (Polynomial.X : Polynomial (ZMod 2)) ^ k else 0) =
      ((bytesOf ws).foldl
          (fun m b => m * Polynomial.X ^ 8 +
            ∑ k ∈ Finset.range 8,
              if b.getLsbD k then (Polynomial.X : Polynomial (ZMod 2)) ^ k else 0) 0 *
        Polynomial.X ^ 32) %ₘ
      (([32, 26, 23, 22, 16, 12, 11, 10, 8, 7, 5, 4, 2, 1, 0].map
        (fun k => (Polynomial.X : Polynomial (ZMod 2)) ^ k)).sum)

/-! ## The host -/

/-- R48: `CRC32` over any sequence expands to `CLR`, its words in order, `RD`, and its result is the
value the final `RD` returns; what the sequence notations stand for; and `GOLDEN` over an image of
`num_blocks*block_size` words expands to one `CRC32` per data block, the `i`-th over
`image[i*block_size .. (i+1)*block_size - 1]`, in increasing order. -/
def Obligations.PseudoInstructionsExpand : Prop :=
  (∀ (seq : WordSeq) (s : State),
    expand (.crc32 seq) = [.clr] ++ (wordsOf seq).map Instr.word ++ [.rd] ∧
    (expand (.crc32 seq)).length = (wordsOf seq).length + 2 ∧
    runCommands (expand (.crc32 seq)) s =
      .next ⟨crc32 (wordsOf seq), s.pending, s.results ++ [crc32 (wordsOf seq)]⟩) ∧
  (∀ ws : List Word, wordsOf (.lit ws) = ws) ∧
  (∀ s t : WordSeq, wordsOf (.cat s t) = wordsOf s ++ wordsOf t) ∧
  (∀ (seq : WordSeq) (n : Nat),
    wordsOf (.rep seq 0) = [] ∧
    wordsOf (.rep seq (n + 1)) = wordsOf seq ++ wordsOf (.rep seq n)) ∧
  (∀ (image : List Word) (n b : Nat), image.length = n * b →
    expand (.golden image n b) =
      (List.range n).flatMap (fun i =>
        expand (.crc32 (.lit ((List.range b).map (fun j => image.getD (i * b + j) 0x0000#16))))))

/-- R79: over an image of `num_blocks*block_size` words the golden run gives `num_blocks` outputs, the
`i`-th being `CRC32` of `image[i*block_size]` to `image[(i+1)*block_size - 1]` in increasing index
order. -/
def Obligations.GoldenRunReturnsBlockChecksums : Prop :=
  ∀ (image : List Word) (n b : Nat) (s : State), image.length = n * b →
    ∃ t golden, runCommands (expand (.golden image n b)) s = .next t ∧
      t.results = s.results ++ golden ∧ t.pending = s.pending ∧ golden.length = n ∧
      ∀ i < n, golden[i]? =
        some (crc32 ((List.range b).map (fun j => image.getD (i * b + j) 0x0000#16)))

/-- R80: the data blocks partition the image exactly, all of one size, and a block's golden value
depends only on that block's words. -/
def Obligations.DataBlocksPartitionTheImage : Prop :=
  ∀ (image : List Word) (n b : Nat), image.length = n * b →
    (dataBlocks image n b).flatten = image ∧
    (∀ block ∈ dataBlocks image n b, block.length = b) ∧
    ∀ image' : List Word, image'.length = n * b → ∀ i < n,
      (∀ j < b, image'[i * b + j]? = image[i * b + j]?) →
      (goldenTable image' n b)[i]? = (goldenTable image n b)[i]?

/-- 41_transactions.md section 3: engines share nothing mutable, so in any interleaving each engine
ends where its own commands alone would have taken it, and the schedule completes. That engines are
interleaved one command at a time is the model's choice (log 14). -/
def Obligations.EnginesAreIndependent : Prop :=
  ∀ (schedule : List (Nat × Instr)) (es : List State), (∀ c ∈ schedule, c.1 < es.length) →
    ∃ es', runSchedule schedule es = some es' ∧ es'.length = es.length ∧
      ∀ (k : Nat) (s : State), es[k]? = some s →
        ∃ t, es'[k]? = some t ∧ runCommands (commandsFor k schedule) s = .next t

/-- R43: the assembler rejects an operand outside 0..0xFFFF, and takes every other as it stands. -/
def Obligations.AssemblerRejectsOperandsOutsideTheField : Prop :=
  ∀ n : Int,
    (n < 0 ∨ 0xFFFF < n → assembleCommand (.word n) = .error (.operandOutOfRange n)) ∧
    (0 ≤ n ∧ n ≤ 0xFFFF → ∃ w : Word, assembleCommand (.word n) = .ok (.word w) ∧ (w.toNat : Int) = n)

/-- 30_encoding.md section 6: the text of a command assembles to that command, with or without a
comment after it (which blanks may stand around a token is the model's choice, log 9). -/
def Obligations.AssemblerReadsBackRenderedCommands : Prop :=
  ∀ (i : Instr) (comment : List Char),
    assembleLine (renderLine i) = .ok [i] ∧
    assembleLine (renderLine i ++ ' ' :: ';' :: comment) = .ok [i]

/-- 30_encoding.md section 6: the text of `CRC32` over a written list of any length assembles to the
transaction over its words (blanks as in log 9). -/
def Obligations.AssemblerExpandsCrc32Lines : Prop :=
  ∀ ws : List Word, assembleLine (renderCrc32 ws) = .ok (transaction ws)

/-- 30_encoding.md section 6: a repetition `[a, b]*n` may stand inside the brackets of `CRC32`, beside
values and other repetitions and inside a repetition too, and stands for its words `n` times (blanks
and decimal counts as in log 9). -/
def Obligations.AssemblerExpandsRepetitionsInsideBrackets : Prop :=
  ∀ seq : WordSeq, hasElements seq = true →
    assembleLine (renderCrc32Elements seq) = .ok (transaction (wordsOf seq))
end

