-- ==== Sys2Proof/Laws/Assembler.lean ====
section
/-! SUPPORT. The small lemmas of the assembler: numerals are read back from their text, their
characters are no token of their own, and they stand in one token. -/

namespace Sys2Proof.Machine

/-- A hexadecimal digit is read back, and is no blank, comment mark or punctuation. -/
theorem hexDigit_props : ∀ v : BitVec 4, hexValue (hexDigit v) = some v.toNat ∧
    hexDigit v ≠ ' ' ∧ (hexDigit v != ';') = true ∧ isPunctuation (hexDigit v) = false := by
  decide +kernel

/-- The four hexadecimal digits of a word give its number. -/
theorem nibbles_toNat (w : Word) :
    (((w.extractLsb' 12 4).toNat * 16 + (w.extractLsb' 8 4).toNat) * 16 +
      (w.extractLsb' 4 4).toNat) * 16 + (w.extractLsb' 0 4).toNat = w.toNat := by
  have := w.isLt
  simp only [BitVec.extractLsb'_toNat, Nat.shiftRight_eq_div_pow]
  omega

/-- The text of a value is read back. -/
theorem parseValue_renderValue (w : Word) : parseValue (renderValue w) = some w.toNat := by
  simp only [renderValue, parseValue, hexDigit_props, nibbles_toNat]

/-- A run of characters that are no blank and no punctuation goes on the token being read. -/
theorem tokensFrom_plain (cur cs rest : List Char)
    (h : ∀ c ∈ cs, c ≠ ' ' ∧ isPunctuation c = false) :
    tokensFrom cur (cs ++ rest) = tokensFrom (cur ++ cs) rest := by
  induction cs generalizing cur with
  | nil => simp
  | cons c cs ih =>
    have hc := h c (by simp)
    rw [List.cons_append, tokensFrom, if_neg hc.1, if_neg (by simp [hc.2]),
      ih _ (fun d hd => h d (by simp [hd]))]
    simp

/-- A punctuation mark ends the token being read and is a token by itself. -/
theorem tokensFrom_punctuation (cur rest : List Char) {c : Char} (hb : c ≠ ' ')
    (hp : isPunctuation c = true) :
    tokensFrom cur (c :: rest) = pendingToken cur ++ [c] :: tokensFrom [] rest := by
  rw [tokensFrom, if_neg hb, if_pos hp]

/-- A blank ends the token being read. -/
theorem tokensFrom_blank (cur rest : List Char) :
    tokensFrom cur (' ' :: rest) = pendingToken cur ++ tokensFrom [] rest := by
  rw [tokensFrom, if_pos rfl]

/-- The characters of a value go on the token being read. -/
theorem renderValue_plain (w : Word) :
    ∀ c ∈ renderValue w, c ≠ ' ' ∧ isPunctuation c = false := by
  intro c hc
  simp only [renderValue, List.mem_cons, List.not_mem_nil, or_false] at hc
  rcases hc with rfl | rfl | rfl | rfl | rfl | rfl
  · decide
  · decide
  all_goals exact ⟨(hexDigit_props _).2.1, (hexDigit_props _).2.2.2⟩

/-- Reading decimal digits after others. -/
theorem decimalFrom_append (n : Nat) (ds es : List Char) :
    decimalFrom n (ds ++ es) = (decimalFrom n ds).bind (fun m => decimalFrom m es) := by
  induction ds generalizing n with
  | nil => rfl
  | cons d ds ih =>
    simp only [List.cons_append, decimalFrom]
    split
    · exact ih _
    · rfl

/-- One decimal digit is read back, and is no blank, comment mark or punctuation. -/
theorem digitChar_props : ∀ d < 10, (∀ n, decimalFrom n [Nat.digitChar d] = some (n * 10 + d)) ∧
    Nat.digitChar d ≠ ' ' ∧ (Nat.digitChar d != ';') = true ∧
    isPunctuation (Nat.digitChar d) = false := by
  intro d hd
  interval_cases d <;> exact ⟨fun _ => rfl, by decide, by decide, by decide⟩

/-- A decimal number is read back. -/
theorem decimalFrom_toDigits (n : Nat) : decimalFrom 0 (Nat.toDigits 10 n) = some n := by
  induction n using Nat.strongRecOn with
  | ind n ih =>
    by_cases h : n < 10
    · rw [Nat.toDigits_of_lt_base h, (digitChar_props n h).1 0]; simp
    · rw [Nat.toDigits_of_base_le (by decide) (by omega), decimalFrom_append,
        ih _ (by omega), Option.bind_some, (digitChar_props _ (Nat.mod_lt _ (by decide))).1]
      congr 1; omega

/-- The characters of a decimal number. -/
theorem toDigits_plain (n : Nat) : ∀ c ∈ Nat.toDigits 10 n,
    c ≠ ' ' ∧ isPunctuation c = false ∧ (c != ';') = true := by
  induction n using Nat.strongRecOn with
  | ind n ih =>
    by_cases h : n < 10
    · rw [Nat.toDigits_of_lt_base h]
      have := digitChar_props n h
      intro c hc
      rw [List.mem_singleton.1 hc]
      exact ⟨this.2.1, this.2.2.2, this.2.2.1⟩
    · rw [Nat.toDigits_of_base_le (by decide) (by omega)]
      intro c hc
      rcases List.mem_append.1 hc with hc | hc
      · exact ih _ (by omega) c hc
      · have := digitChar_props _ (Nat.mod_lt n (show 10 > 0 by decide))
        rw [List.mem_singleton.1 hc]
        exact ⟨this.2.1, this.2.2.2, this.2.2.1⟩

/-- A repetition count is read back. -/
theorem parseDecimal_toDigits (n : Nat) : parseDecimal (Nat.toDigits 10 n) = some n := by
  rw [parseDecimal, if_neg Nat.toDigits_ne_nil, decimalFrom_toDigits]

end Sys2Proof.Machine
end

