-- ==== Sys2Proof/Laws/Decode.lean ====
section
/-! SUPPORT. The fields of a command word as numbers, the bits of an encoded `WORD`, and everything
the decoder can answer. -/

namespace Sys2Proof

theorem opField_toNat (x : CmdWord) : (opField x).toNat = x.toNat / 65536 := by
  have h := x.isLt
  simp only [opField, BitVec.extractLsb'_toNat, Nat.shiftRight_eq_div_pow]
  omega

theorem dataField_toNat (x : CmdWord) : (dataField x).toNat = x.toNat % 65536 := by
  simp only [dataField, BitVec.extractLsb'_toNat, Nat.shiftRight_zero]

/-- R46: `0x20000 + w` is "equivalently `0x20000 OR zext_18(w)`". -/
theorem encode_word_eq_or (w : Word) :
    encode (.word w) = 0x20000#18 ||| w.setWidth 18 := by
  refine BitVec.add_eq_or_of_and_eq_zero _ _ ?_
  ext k hk
  have hw : 16 ≤ k → w.getLsbD k = false := fun h => BitVec.getLsbD_of_ge w k h
  interval_cases k <;> simp_all

/-- Everything the decoder can answer, with the fields that make it do so. -/
theorem decode_cases (x : CmdWord) :
    (opField x = 0b01#2 ∧ dataField x = 0#16 ∧ decode x = .ok .clr) ∨
    (opField x = 0b01#2 ∧ dataField x ≠ 0#16 ∧ decode x = .error (.clrWithData (dataField x))) ∨
    (opField x = 0b10#2 ∧ decode x = .ok (.word (dataField x))) ∨
    (opField x = 0b11#2 ∧ dataField x = 0#16 ∧ decode x = .ok .rd) ∨
    (opField x = 0b11#2 ∧ dataField x ≠ 0#16 ∧ decode x = .error (.rdWithData (dataField x))) ∨
    (opField x = 0b00#2 ∧ decode x = .error (.opZero (dataField x))) := by
  have four : ∀ op : BitVec 2, op = 0b00#2 ∨ op = 0b01#2 ∨ op = 0b10#2 ∨ op = 0b11#2 := by decide
  rcases four (opField x) with h | h | h | h <;> by_cases hd : dataField x = 0#16 <;>
    simp [decode, h, hd]

end Sys2Proof
end

