-- ==== Sys2Proof/Laws/Ops.lean ====
section
/-! SUPPORT. The small lemmas of the shared operations: the folds over words and bytes, and what a
command can answer. -/

namespace Sys2Proof.Machine

@[simp] theorem bytesOf_nil : bytesOf [] = [] := rfl

@[simp] theorem bytesOf_cons (w : Word) (ws : List Word) :
    bytesOf (w :: ws) = lo w :: hi w :: bytesOf ws := rfl

@[simp] theorem absorb_nil (a : Acc) : absorb a [] = a := rfl

@[simp] theorem absorb_cons (a : Acc) (w : Word) (ws : List Word) :
    absorb a (w :: ws) = absorb (wordStep a w) ws := rfl

/-- One more word at the end is one more word step. -/
theorem absorb_snoc (a : Acc) (ws : List Word) (w : Word) :
    absorb a (ws ++ [w]) = wordStep (absorb a ws) w := by
  induction ws generalizing a with
  | nil => rfl
  | cons v vs ih => exact ih (wordStep a v)

@[simp] theorem shiftRounds_zero (c : Acc) : shiftRounds 0 c = c := rfl

@[simp] theorem shiftRounds_succ (n : Nat) (c : Acc) :
    shiftRounds (n + 1) c = shiftRounds n (shiftRound c) := rfl

/-- Everything a command can answer: the next state of its own kind, and nothing else. -/
theorem exec_cases {i : Instr} {s : State} {o : Host.Outcome State Fault Refusal}
    (h : exec i s = o) :
    (i = .clr ∧ o = .next (s.setAcc Config.accInit)) ∨
    (∃ w, i = .word w ∧ o = .next (s.setAcc (wordStep s.acc w))) ∨
    (i = .rd ∧ o = .next (s.present s.acc)) := by
  subst h
  cases i with
  | clr => exact .inl ⟨rfl, rfl⟩
  | word w => exact .inr (.inl ⟨w, rfl, rfl⟩)
  | rd => exact .inr (.inr ⟨rfl, rfl⟩)

@[simp] theorem runCommands_nil (s : State) : runCommands [] s = .next s := rfl

/-- A list of commands runs its first command and then the rest. -/
theorem runCommands_cons_of_next {i : Instr} {is : List Instr} {s t : State}
    (h : exec i s = .next t) : runCommands (i :: is) s = runCommands is t := by
  simp only [runCommands, h]

/-- A run of a list of commands splits at any point of the list. -/
theorem runCommands_append_of_next {is js : List Instr} {s t : State}
    (h : runCommands is s = .next t) : runCommands (is ++ js) s = runCommands js t := by
  induction is generalizing s with
  | nil => cases h; rfl
  | cons i is ih =>
    rcases exec_cases (rfl : exec i s = exec i s) with ⟨_, e⟩ | ⟨_, _, e⟩ | ⟨_, e⟩
    all_goals
      rw [runCommands_cons_of_next e] at h
      rw [List.cons_append, runCommands_cons_of_next e, ih h]

end Sys2Proof.Machine
end

