-- ==== Sys2Proof/Laws/PerInstr.lean ====
section
/-! SUPPORT. Per-instruction statements over the syntax: which rows of the opcode map (R41) a
command's word lies in. -/

namespace Sys2Proof.Laws

/-- The mnemonic of a command's row. -/
def mnemonicOf : Instr → String
  | .clr => "CLR"
  | .word _ => "WORD"
  | .rd => "RD"

/-- The word of a command lies in its own row of the opcode map and in no other (R41, R45). -/
def OpcodeMap.Statement (i : Instr) : Prop :=
  (opcodeRows.filter (fun r => r.covers (encode i))).map OpcodeRow.mnemonic = [mnemonicOf i]

theorem OpcodeMap.clr : OpcodeMap.Statement .clr := by
  unfold OpcodeMap.Statement; decide

theorem OpcodeMap.word (w : Word) : OpcodeMap.Statement (.word w) := by
  have full : (encode (.word w)) &&& 0x3FFFF#18 = encode (.word w) := by
    show _ &&& BitVec.allOnes 18 = _
    exact BitVec.and_allOnes
  have op : (encode (.word w)) &&& 0x30000#18 = 0x20000#18 := by
    rw [encode_word_eq_or]
    ext k hk
    have hw : 16 ≤ k → w.getLsbD k = false := fun h => BitVec.getLsbD_of_ge w k h
    interval_cases k <;> simp_all
  have bit16 : (encode (.word w)).getLsbD 16 = false := by simp [encode_word_eq_or]
  have clr : encode (.word w) ≠ 0x10000#18 := fun h => by rw [h] at bit16; exact absurd bit16 (by decide)
  have rd : encode (.word w) ≠ 0x30000#18 := fun h => by rw [h] at bit16; exact absurd bit16 (by decide)
  simp [OpcodeMap.Statement, opcodeRows, OpcodeRow.covers, full, op, clr, rd, mnemonicOf]

theorem OpcodeMap.rd : OpcodeMap.Statement .rd := by
  unfold OpcodeMap.Statement; decide

end Sys2Proof.Laws
end

