-- ==== Sys2Proof/Laws/State.lean ====
section
/-! SUPPORT. One lemma per field per named update of the state, so that no proof unfolds an update. -/

namespace Sys2Proof.Machine

@[simp] theorem State.setAcc_acc (v : Acc) (s : State) :
    (s.setAcc v).acc = v := rfl

@[simp] theorem State.setAcc_pending (v : Acc) (s : State) :
    (s.setAcc v).pending = s.pending := rfl

@[simp] theorem State.setAcc_results (v : Acc) (s : State) :
    (s.setAcc v).results = s.results := rfl

@[simp] theorem State.present_acc (v : Acc) (s : State) :
    (s.present v).acc = s.acc := rfl

@[simp] theorem State.present_pending (v : Acc) (s : State) :
    (s.present v).pending = s.pending := rfl

@[simp] theorem State.present_results (v : Acc) (s : State) :
    (s.present v).results = s.results ++ [v] := rfl

@[simp] theorem State.applyReset_acc (s : State) :
    (s.applyReset).acc = Config.accReset := rfl

@[simp] theorem State.applyReset_pending (s : State) :
    (s.applyReset).pending = s.pending := rfl

@[simp] theorem State.applyReset_results (s : State) :
    (s.applyReset).results = s.results := rfl

@[simp] theorem State.withPending_acc (es : List PortEdge) (s : State) :
    (s.withPending es).acc = s.acc := rfl

@[simp] theorem State.withPending_pending (es : List PortEdge) (s : State) :
    (s.withPending es).pending = es := rfl

@[simp] theorem State.withPending_results (es : List PortEdge) (s : State) :
    (s.withPending es).results = s.results := rfl

@[simp] theorem State.presenting_acc (is : List Instr) (s : State) :
    (s.presenting is).acc = s.acc := rfl

@[simp] theorem State.presenting_pending (is : List Instr) (s : State) :
    (s.presenting is).pending = is.map (fun i => acceptedEdge (encode i)) ++ s.pending := rfl

@[simp] theorem State.presenting_results (is : List Instr) (s : State) :
    (s.presenting is).results = s.results := rfl

/-- Two states agree when their three fields do. -/
theorem State.ext_fields (s t : State) (ha : s.acc = t.acc) (hp : s.pending = t.pending)
    (hr : s.results = t.results) : s = t := by
  cases s; cases t; simp_all

end Sys2Proof.Machine
end

