-- ==== Sys2Proof/Laws/Step.lean ====
section
/-! SUPPORT. What one edge and one step can answer, said once. -/

namespace Sys2Proof.Machine

/-- Everything an edge can do, with what is on the ports when it does so. -/
theorem deliver_cases (e : PortEdge) (s : State) :
    (e.rst = true ∧ e.accepts = none ∧ deliver e s = .next s.applyReset) ∨
    (e.rst = false ∧ e.cmdValid = false ∧ e.accepts = none ∧ deliver e s = .next s) ∨
    (∃ why, e.rst = false ∧ e.cmdValid = true ∧ decode e.cmd = .error why ∧ e.accepts = none ∧
      deliver e s = .refused (.reservedCommand why)) ∨
    (∃ i, e.rst = false ∧ e.cmdValid = true ∧ decode e.cmd = .ok i ∧ e.cmdReady = false ∧
      e.accepts = none ∧ deliver e s = .next s) ∨
    (∃ i, e.rst = false ∧ e.cmdValid = true ∧ decode e.cmd = .ok i ∧ e.cmdReady = true ∧
      e.accepts = some i ∧ deliver e s = exec i s) := by
  obtain ⟨rst, valid, ready, cmd⟩ := e
  cases rst <;> cases valid <;> cases ready <;> cases hd : decode cmd <;>
    simp [deliver, PortEdge.accepts, hd]

/-- A step that answers a next state either found no edge or delivered the first one. -/
theorem step_next_cases {s t : State} (h : step s = .next t) :
    (s.pending = [] ∧ t = s) ∨
    (∃ e es, s.pending = e :: es ∧ deliver e (s.withPending es) = .next t) := by
  unfold step at h
  split at h
  · next hp => cases h; exact .inl ⟨hp, rfl⟩
  · next e es hp => exact .inr ⟨e, es, hp, h⟩

/-- A step with an edge left delivers it. -/
theorem step_of_cons {s : State} {e : PortEdge} {es : List PortEdge} (h : s.pending = e :: es) :
    step s = deliver e (s.withPending es) := by
  unfold step; rw [h]

/-- A step with no edge left holds the state. -/
theorem step_of_nil {s : State} (h : s.pending = []) : step s = .next s := by
  unfold step; rw [h]

/-- A run of no steps stays where it is. -/
theorem run_zero (s : State) : Host.Core.run Sys2Proof.core 0 s = .next s := rfl

/-- A run takes its first step, then the rest. -/
theorem run_succ_of_next {s t : State} (n : Nat) (h : step s = .next t) :
    Host.Core.run Sys2Proof.core (n + 1) s = Host.Core.run Sys2Proof.core n t := by
  have e : Host.Core.step Sys2Proof.core s = .next t := h
  simp only [Host.Core.run, e]

/-- A run splits at any step it reaches. -/
theorem run_add_of_next {n : Nat} (m : Nat) {s t : State}
    (h : Host.Core.run Sys2Proof.core n s = .next t) :
    Host.Core.run Sys2Proof.core (n + m) s = Host.Core.run Sys2Proof.core m t := by
  induction n generalizing s with
  | zero => cases h; rw [Nat.zero_add]
  | succ n ih =>
    rw [Nat.succ_add]
    rcases hs : step s with s' | f | r
    · rw [run_succ_of_next _ hs] at h ⊢
      exact ih h
    · exact nomatch f
    · have e : Host.Core.step Sys2Proof.core s = .refused r := hs
      simp only [Host.Core.run, e] at h
      cases h

end Sys2Proof.Machine
end

