-- ==== Sys2Proof/Tests/Slice0.lean ====
section
/-! SUPPORT. Small tests with expected values from spec/95_test_vectors.md and the rules named beside
them, and a witness for every statement that has hypotheses. -/

namespace Sys2Proof.Tests

open Sys2Proof.Machine

/-- A state with this accumulator, these edges to come and no output yet. -/
def at_ (a : Acc) (es : List PortEdge) : State := ⟨a, es, []⟩

/-- The state an outcome goes on to, if it does. -/
def nextOf (o : Host.Outcome State Fault Refusal) : Option State :=
  match o with
  | .next t => some t
  | .fault _ => none
  | .refused _ => none

/-- The reserved word an outcome refuses, if it does. -/
def reservedOf (o : Host.Outcome State Fault Refusal) : Option Reserved :=
  match o with
  | .refused (.reservedCommand why) => some why
  | _ => none

/-! ## Well-formedness: each check refuses an ill-formed term -/

/-- R43: an operand above 0xFFFF. -/
theorem test_operand_above_field_ill_formed :
    (SourceCommand.word 0x10000).wellFormed = false := by decide

/-- R43: an operand below 0. -/
theorem test_operand_below_zero_ill_formed :
    (SourceCommand.word (-1)).wellFormed = false := by decide

/-- R80, R99: an image that is not `num_blocks*block_size` words long. -/
theorem test_golden_length_mismatch_ill_formed :
    (Pseudo.golden [0x0001#16, 0x0002#16, 0x0003#16] 2 2).wellFormed = false := by decide

/-- R80: a block size of zero. -/
theorem test_golden_empty_ill_formed : (Pseudo.golden [] 3 0).wellFormed = false := by decide

/-- 95_test_vectors P5: the source's end-to-end golden run is well formed and expands to CLR, two
words, RD. -/
theorem test_golden_expands :
    expandChecked (.golden [0x0001#16, 0x0002#16] 1 2) =
      some [.clr, .word 0x0001#16, .word 0x0002#16, .rd] := by decide

/-! ## Decoding: words written out from the format of R40 and R41 -/

/-- `CLR`: op = 01, data = 0. -/
theorem test_decode_clr : decode 0b010000000000000000#18 = .ok .clr := by rfl

/-- `WORD 0x8001`: op = 10, data = 1000000000000001. -/
theorem test_decode_word : decode 0b101000000000000001#18 = .ok (.word 0x8001#16) := by rfl

/-- `RD`: op = 11, data = 0. -/
theorem test_decode_rd : decode 0b110000000000000000#18 = .ok .rd := by rfl

/-- D-E6 and D-E7: op = 00 is reserved at both ends of its range. -/
theorem test_decode_op_zero_reserved :
    decode 0x00000#18 = .error (.opZero 0x0000#16) ∧
    decode 0x0FFFF#18 = .error (.opZero 0xFFFF#16) := by exact ⟨rfl, rfl⟩

/-- D-E8 to D-E11: `CLR` and `RD` with data that is not zero. -/
theorem test_decode_data_reserved :
    decode 0x10001#18 = .error (.clrWithData 0x0001#16) ∧
    decode 0x1FFFF#18 = .error (.clrWithData 0xFFFF#16) ∧
    decode 0x30001#18 = .error (.rdWithData 0x0001#16) ∧
    decode 0x3FFFF#18 = .error (.rdWithData 0xFFFF#16) := by exact ⟨rfl, rfl, rfl, rfl⟩

/-- The opcode table's numbering of `WORD 0x0061` (D-E3), and a number the 18-bit port cannot
carry. -/
theorem test_decode_table_word :
    decodeTableWord 24 0x20061 = some (.word 0x0061#16) ∧ decodeTableWord 24 0x40000 = none := by
  decide

/-! ## Commands -/

/-- R59's example: `ACC = 0x4BEAB53B`, `CLR`. -/
theorem test_clr : nextOf (exec .clr (at_ 0x4BEAB53B#32 [])) = some (at_ 0#32 []) := by decide

/-- D-W9 against D-W10: the low byte goes first. -/
theorem test_word_byte_order :
    nextOf (exec (.word 0x1234#16) (at_ 0#32 [])) = some (at_ 0x30456C82#32 []) := by
  decide +kernel

/-- 95_test_vectors: `WordStep(0x4BEAB53B, 0x1234) = 0xD6B8ECE0`, a non-zero accumulator. -/
theorem test_word_from_nonzero :
    nextOf (exec (.word 0x1234#16) (at_ 0x4BEAB53B#32 [])) = some (at_ 0xD6B8ECE0#32 []) := by
  decide +kernel

/-- R61's example: `ACC = 0x4BEAB53B`, `RD`, after an earlier output. -/
theorem test_rd :
    nextOf (exec .rd ⟨0x4BEAB53B#32, [], [0x26808876#32]⟩) =
      some ⟨0x4BEAB53B#32, [], [0x26808876#32, 0x4BEAB53B#32]⟩ := by decide

/-- D-B7: the byte equals the top byte, so the index is 0 and the step is a pure shift. -/
theorem test_byte_step_pure_shift : byteStep 0xFF48647D#32 0xFF#8 = 0x48647D00#32 := by
  decide +kernel

/-! ## The port -/

/-- `step` runs the word that `withFetchWord` puts on the port, first after reset (D-W2). -/
theorem test_fetch_word_runs :
    nextOf (step (State.reset.withFetchWord 24 0x20001)) = some (at_ 0xD219C1DC#32 []) := by
  decide +kernel

/-- R98, D-E6: the all-zero word is refused by name. -/
theorem test_reserved_word_refused :
    reservedOf (step (at_ 1#32 [acceptedEdge 0x00000#18])) = some (.opZero 0#16) := by decide

/-- R93: reset wins over a presented `WORD`. -/
theorem test_reset_wins :
    nextOf (step (at_ 0xFFFFFFFF#32 [⟨true, true, true, 0x2FFFF#18⟩])) = some (at_ 0#32 []) := by
  decide

/-! ## The assembler -/

/-- R47's example line with its comment. -/
theorem test_assemble_line :
    assembleLine ['W', 'O', 'R', 'D', ' ', '0', 'x', '0', '0', '6', '1', ' ', ' ', ';', 'w', '0'] =
      .ok [.word 0x0061#16] := by rfl

/-- R43, R47: five digits are no 16-bit operand, and lower-case digits are none of the syntax. -/
theorem test_assemble_bad_numerals :
    assembleLine ['W', 'O', 'R', 'D', ' ', '0', 'x', '1', '0', '0', '0', '0'] = .error .badNumeral ∧
    assembleLine ['W', 'O', 'R', 'D', ' ', '0', 'x', '0', '0', '0', 'a'] = .error .badNumeral := by
  exact ⟨rfl, rfl⟩

/-- The repetition notation of V3 on a `CRC32` line, with two repetitions. -/
theorem test_assemble_crc32_repetition :
    assembleLine (['C', 'R', 'C', '3', '2', ' ', '[', '0', 'x', '0', '0', '0', '1', ','] ++
      ['0', 'x', '0', '0', '0', '2', ']', '*', '2']) =
      .ok [.clr, .word 0x0001#16, .word 0x0002#16, .word 0x0001#16, .word 0x0002#16, .rd] := by
  rfl

/-- D-T19's words as a repetition inside the brackets, with two repetitions:
`CRC32 [0x0001, [0x0000]*2]`. -/
theorem test_assemble_crc32_repetition_inside_brackets :
    assembleLine (['C', 'R', 'C', '3', '2', ' ', '[', '0', 'x', '0', '0', '0', '1', ',', ' '] ++
      ['[', '0', 'x', '0', '0', '0', '0', ']', '*', '2', ']']) =
      .ok [.clr, .word 0x0001#16, .word 0x0000#16, .word 0x0000#16, .rd] := by
  rfl

/-- P5's line `GOLDEN [0x0001,0x0002], 1, 2`, and the same with a block size that does not fit. -/
theorem test_assemble_golden :
    assembleLine (['G', 'O', 'L', 'D', 'E', 'N', ' ', '[', '0', 'x', '0', '0', '0', '1', ','] ++
      ['0', 'x', '0', '0', '0', '2', ']', ',', ' ', '1', ',', ' ', '2']) =
      .ok [.clr, .word 0x0001#16, .word 0x0002#16, .rd] ∧
    assembleLine (['G', 'O', 'L', 'D', 'E', 'N', ' ', '[', '0', 'x', '0', '0', '0', '1', ','] ++
      ['0', 'x', '0', '0', '0', '2', ']', ',', ' ', '1', ',', ' ', '3']) = .error .badGolden := by
  exact ⟨rfl, rfl⟩

/-! ## Witnesses: the hypotheses of each statement hold together somewhere -/

theorem witness_ResetEventWritesZeroLikeClr :
    ∃ (s : State) (e : PortEdge) (es : List PortEdge), s.pending = e :: es ∧ e.rst = true :=
  ⟨at_ 5#32 [resetEdge, idleEdge], resetEdge, [idleEdge], rfl, rfl⟩

theorem witness_ResetBeatsASimultaneousCommand : ∃ s t : State, step s = .next t :=
  ⟨at_ 5#32 [idleEdge], at_ 5#32 [], rfl⟩

theorem witness_CommandsChangeOnlyTheirOwn :
    ∀ i : Instr, ∃ s t s' t' : State, exec i s = .next t ∧ s'.acc = s.acc ∧ exec i s' = .next t'
  | .clr => ⟨at_ 5#32 [], at_ 0#32 [], at_ 5#32 [idleEdge], at_ 0#32 [idleEdge], rfl, rfl, rfl⟩
  | .word w =>
    ⟨at_ 5#32 [], (at_ 5#32 []).setAcc (wordStep 5#32 w), at_ 5#32 [idleEdge],
      (at_ 5#32 [idleEdge]).setAcc (wordStep 5#32 w), rfl, rfl, rfl⟩
  | .rd => ⟨at_ 5#32 [], _, at_ 5#32 [idleEdge], _, rfl, rfl, rfl⟩

/-- Each of the three kinds of event, `WORD` at both ends of its range of command words. -/
theorem witness_OnlyClrWordAndResetChangeAcc :
    [resetEdge, acceptedEdge 0x10000#18, acceptedEdge 0x20000#18, acceptedEdge 0x2FFFF#18].all
      (fun e => (nextOf (step (at_ 1#32 [e]))).any (fun t => t.acc != 1#32)) = true := by
  decide +kernel

theorem witness_EarlierOutputsDoNotMatter :
    (∃ t, step (at_ 1#32 [acceptedEdge 0x30000#18]) = .next t) ∧
    (∃ r, step (at_ 1#32 [acceptedEdge 0x30001#18]) = .refused r) := ⟨⟨_, rfl⟩, ⟨_, rfl⟩⟩

theorem witness_EncodeAndDecodeAreInverse :
    decode 0x10000#18 = .ok .clr ∧ decode 0x20000#18 = .ok (.word 0x0000#16) ∧
    decode 0x2FFFF#18 = .ok (.word 0xFFFF#16) ∧ decode 0x30000#18 = .ok .rd := ⟨rfl, rfl, rfl, rfl⟩

/-- The lowest and the highest bit of the index, one clear and one set. -/
theorem witness_TableIndexIsTopByteXorByte :
    (0 < 8 ∧ (tableIndex 0x81000000#32 0x01#8).getLsbD 0 = false) ∧
    (7 < 8 ∧ (tableIndex 0x81000000#32 0x01#8).getLsbD 7 = true) := by decide

theorem witness_WordAbsorbsBothBytesInOneStep :
    ∃ (w : Word) (s : State) (es : List PortEdge),
      s.pending = acceptedEdge (0x20000#18 + w.setWidth 18) :: es :=
  ⟨0xFFFF#16, at_ 5#32 [acceptedEdge 0x2FFFF#18], [], by decide⟩

theorem witness_EveryCommandIsDefinedOnEveryState :
    ∃ (s : State) (e : PortEdge) (es : List PortEdge), s.pending = e :: es ∧ e.rst = false ∧
      e.cmdValid = false :=
  ⟨at_ 5#32 [idleEdge], idleEdge, [], rfl, rfl, rfl⟩

theorem witness_StepWithNoEdgeLeftHoldsTheState : ∃ s : State, s.acc ≠ 0#32 ∧ s.pending = [] :=
  ⟨at_ 5#32 [], by decide, rfl⟩

theorem witness_StepRunsTheDecodedCommand :
    ∃ (s : State) (e : PortEdge) (es : List PortEdge) (i : Instr), s.pending = e :: es ∧
      e.rst = false ∧ e.cmdValid = true ∧ e.cmdReady = true ∧ decode e.cmd = .ok i :=
  ⟨at_ 5#32 [acceptedEdge 0x2FFFF#18], acceptedEdge 0x2FFFF#18, [], .word 0xFFFF#16,
    rfl, rfl, rfl, rfl, rfl⟩

theorem witness_CommandNotAcceptedHasNoEffect :
    ∃ (s : State) (e : PortEdge) (es : List PortEdge) (i : Instr), s.pending = e :: es ∧
      e.rst = false ∧ e.cmdValid = true ∧ e.cmdReady = false ∧ decode e.cmd = .ok i :=
  ⟨at_ 5#32 [⟨false, true, false, 0x10000#18⟩], ⟨false, true, false, 0x10000#18⟩, [], .clr,
    rfl, rfl, rfl, rfl, rfl⟩

/-- A contract kept with commands, an idle edge, and a reserved word ignored under reset. -/
theorem witness_KeptContractNeverStops :
    (at_ 5#32 [acceptedEdge 0x10000#18, idleEdge, acceptedEdge 0x2FFFF#18,
      ⟨true, true, true, 0x00000#18⟩, acceptedEdge 0x30000#18]).HostKeepsContract := by
  simp [State.HostKeepsContract, at_, acceptedEdge, idleEdge, IsReservedWord]

/-- Both sides of the stop: a reserved word at each edge of the reserved ranges. -/
theorem witness_StepStopsOnlyAtAReservedWord :
    ∀ x ∈ [0x00000#18, 0x0FFFF#18, 0x10001#18, 0x1FFFF#18, 0x30001#18, 0x3FFFF#18],
      IsReservedWord x ∧ (reservedOf (step (at_ 1#32 [acceptedEdge x]))).isSome = true := by
  intro x hx
  simp only [List.mem_cons, List.not_mem_nil, or_false] at hx
  rcases hx with rfl | rfl | rfl | rfl | rfl | rfl <;> exact ⟨by unfold IsReservedWord; decide, rfl⟩

theorem witness_StepKeepsStateAccountedFor :
    ∃ (stream : List PortEdge) (s t : State), s.AccountedBy stream ∧ step s = .next t :=
  ⟨[acceptedEdge 0x20001#18], State.reset.withPending [acceptedEdge 0x20001#18], _,
    ⟨[], rfl, rfl, rfl⟩, rfl⟩

theorem witness_ChecksumIsLinearOverXor :
    [0x0001#16, 0x0002#16].length = [0x0002#16, 0x0001#16].length := rfl

/-- P4's image again, and an image of no words with no data block. -/
theorem witness_PseudoInstructionsExpand :
    [0x0001#16, 0x0002#16, 0x0003#16, 0x0004#16, 0xFFFF#16, 0xFFFF#16, 0xFFFF#16, 0xFFFF#16].length =
      2 * 4 ∧ ([] : List Word).length = 0 * 4 := by decide

/-- A value beside a repetition that holds a repetition: `0x0001, [[0xFFFF]*2, 0x0002]*13`. -/
theorem witness_AssemblerExpandsRepetitionsInsideBrackets :
    hasElements (.cat (.lit [0x0001#16])
      (.rep (.cat (.rep (.lit [0xFFFF#16]) 2) (.lit [0x0002#16])) 13)) = true := by decide

/-- P4's image: two data blocks of four words. -/
theorem witness_GoldenRunReturnsBlockChecksums :
    [0x0001#16, 0x0002#16, 0x0003#16, 0x0004#16, 0xFFFF#16, 0xFFFF#16, 0xFFFF#16, 0xFFFF#16].length =
      2 * 4 ∧ 1 < 2 := by decide

/-- Two images of one length that agree on data block 1 and differ on data block 0. -/
theorem witness_DataBlocksPartitionTheImage :
    ∃ (image image' : List Word), image.length = 2 * 1 ∧ image'.length = 2 * 1 ∧ 1 < 2 ∧
      (∀ j < 1, image'[1 * 1 + j]? = image[1 * 1 + j]?) ∧ image ≠ image' :=
  ⟨[0x0001#16, 0x0002#16], [0x0005#16, 0x0002#16], by decide⟩

theorem witness_EnginesAreIndependent :
    ∃ (schedule : List (Nat × Instr)) (es : List State), (∀ c ∈ schedule, c.1 < es.length) ∧
      es[1]? = some State.reset :=
  ⟨[(1, .clr), (0, .word 0xFFFF#16), (1, .rd)], [State.reset, State.reset], by decide, rfl⟩

/-- R43 where its clauses meet: -1 and 0x10000 are rejected, 0 and 0xFFFF taken. -/
theorem witness_AssemblerRejectsOperandsOutsideTheField :
    assembleCommand (.word (-1)) = .error (.operandOutOfRange (-1)) ∧
    assembleCommand (.word 0) = .ok (.word 0x0000#16) ∧
    assembleCommand (.word 0xFFFF) = .ok (.word 0xFFFF#16) ∧
    assembleCommand (.word 0x10000) = .error (.operandOutOfRange 0x10000) := by
  exact ⟨rfl, rfl, rfl, rfl⟩

end Sys2Proof.Tests
end

section
/-! The reference vectors of 95_test_vectors.md, by evaluation of the model. -/

namespace Sys2Proof.Machine

/-- Settles O34 (R3): the vectors V1 to V5 are closed, so the kernel folds the word step over each
sequence and compares the accumulator it ends in with the listed value. -/
theorem fiveReferenceVectors : Obligations.FiveReferenceVectors := by
  unfold Obligations.FiveReferenceVectors
  refine ⟨?V1, ?V2, ?V3, ?V4, ?V5⟩
  case V1 => decide +kernel
  case V2 => decide +kernel
  case V3 => decide +kernel
  case V4 => decide +kernel
  case V5 => decide +kernel

end Sys2Proof.Machine
end

section
/-! What a command changes and what it leaves (R17, R18, R21): the host's stream, the outputs, and the
one register. -/

namespace Sys2Proof.Machine

/-- No command takes anything off the host's stream. -/
theorem exec_next_pending {i : Instr} {s t : State} (h : exec i s = .next t) :
    t.pending = s.pending := by
  rcases exec_cases h with ⟨_, e⟩ | ⟨_, _, e⟩ | ⟨_, e⟩ <;> cases e <;> rfl

/-- Only `RD` gives an output. -/
theorem exec_next_results_of_ne_rd {i : Instr} {s t : State} (h : exec i s = .next t)
    (hi : i ≠ .rd) : t.results = s.results := by
  rcases exec_cases h with ⟨_, e⟩ | ⟨_, _, e⟩ | ⟨rfl, _⟩
  · cases e; rfl
  · cases e; rfl
  · exact absurd rfl hi

/-- What `RD` answers, as a next state. -/
theorem exec_rd_next_eq_present {s t : State} (h : exec .rd s = .next t) :
    t = s.present s.acc := by
  cases h; rfl

/-- The new `ACC` is determined by the command and the old `ACC`. -/
theorem exec_next_acc_eq_of_acc_eq {i : Instr} {s t s' t' : State} (ha : s'.acc = s.acc)
    (h : exec i s = .next t) (h' : exec i s' = .next t') : t'.acc = t.acc := by
  cases i with
  | clr => cases h; cases h'; rfl
  | word w => cases h; cases h'; exact congrArg (wordStep · w) ha
  | rd => cases h; cases h'; exact ha

/-- Settles O5 (R18): the frame lemmas of the commands, and the two fields of what `RD` presents. -/
theorem commandsChangeOnlyTheirOwn : Obligations.CommandsChangeOnlyTheirOwn := by
  unfold Obligations.CommandsChangeOnlyTheirOwn
  intro i s t h
  refine ⟨exec_next_pending h, ?_, exec_next_results_of_ne_rd h,
    fun _ _ ha h' => exec_next_acc_eq_of_acc_eq ha h h'⟩
  rintro rfl
  rw [exec_rd_next_eq_present h]
  exact ⟨State.present_acc _ s, State.present_results _ s⟩

end Sys2Proof.Machine
end

section
/-! Reset and `CLR` (R19). -/

namespace Sys2Proof.Machine

/-- The state after reset is the one `CLR` leaves as it is. -/
theorem exec_clr_reset : exec .clr State.reset = .next State.reset := rfl

/-- Settles O1 (R19): a `CLR` right after reset changes nothing, so the run goes on as without it. -/
theorem resetStateHasAccZeroLikeClr : Obligations.ResetStateHasAccZeroLikeClr := by
  unfold Obligations.ResetStateHasAccZeroLikeClr
  exact ⟨rfl, fun _ => (runCommands_cons_of_next exec_clr_reset).symm⟩

end Sys2Proof.Machine
end

section
/-! The outputs given before are no hidden state (R17, R21): the commands, the edges and the steps all
commute with putting earlier outputs in front of a state's own. -/

namespace Sys2Proof.Machine

/-- The state with these outputs given before its own. -/
def State.afterOutputs (old : List Acc) (s : State) : State := ⟨s.acc, s.pending, old ++ s.results⟩

/-- The outcome with these outputs given before those of its next state, if it has one. -/
def outcomeAfterOutputs (old : List Acc) :
    Host.Outcome State Fault Refusal → Host.Outcome State Fault Refusal
  | .next s => .next (s.afterOutputs old)
  | .fault f => .fault f
  | .refused r => .refused r

/-- A state is the one with no output yet, after its outputs. -/
theorem State.eq_afterOutputs_nil (a : Acc) (es : List PortEdge) (old : List Acc) :
    (⟨a, es, old⟩ : State) = State.afterOutputs old ⟨a, es, []⟩ := by
  rw [State.afterOutputs, List.append_nil]

theorem State.present_afterOutputs (v : Acc) (old : List Acc) (s : State) :
    (s.afterOutputs old).present v = (s.present v).afterOutputs old := by
  simp [State.present, State.afterOutputs]

theorem exec_afterOutputs (i : Instr) (old : List Acc) (s : State) :
    exec i (s.afterOutputs old) = outcomeAfterOutputs old (exec i s) := by
  cases i with
  | clr => rfl
  | word w => rfl
  | rd => exact congrArg Host.Outcome.next (State.present_afterOutputs s.acc old s)

/-- What an edge does is chosen by its ports alone, the same for every state (R52, R93). -/
theorem deliver_eq_for_every_state (e : PortEdge) :
    (∀ s, deliver e s = .next s.applyReset) ∨ (∀ s, deliver e s = .next s) ∨
    (∃ r, ∀ s, deliver e s = .refused r) ∨ (∃ i, ∀ s, deliver e s = exec i s) := by
  rcases deliver_cases e State.reset with ⟨hr, _⟩ | ⟨hr, hv, _⟩ | ⟨why, hr, hv, hd, _⟩ |
    ⟨i, hr, hv, hd, hc, _⟩ | ⟨i, hr, hv, hd, hc, _⟩
  · exact .inl fun s => by simp [deliver, hr]
  · exact .inr (.inl fun s => by simp [deliver, hr, hv])
  · exact .inr (.inr (.inl ⟨.reservedCommand why, fun s => by simp [deliver, hr, hv, hd]⟩))
  · exact .inr (.inl fun s => by simp [deliver, hr, hv, hd, hc])
  · exact .inr (.inr (.inr ⟨i, fun s => by simp [deliver, hr, hv, hd, hc]⟩))

theorem deliver_afterOutputs (e : PortEdge) (old : List Acc) (s : State) :
    deliver e (s.afterOutputs old) = outcomeAfterOutputs old (deliver e s) := by
  rcases deliver_eq_for_every_state e with h | h | ⟨_, h⟩ | ⟨i, h⟩ <;> rw [h, h]
  case inl => rfl
  case inr.inl => rfl
  case inr.inr.inl => rfl
  case inr.inr.inr => exact exec_afterOutputs i old s

theorem step_afterOutputs (old : List Acc) (s : State) :
    step (s.afterOutputs old) = outcomeAfterOutputs old (step s) := by
  cases hp : s.pending with
  | nil =>
    have hp' : (s.afterOutputs old).pending = [] := hp
    rw [step_of_nil hp, step_of_nil hp']; rfl
  | cons e es =>
    have hp' : (s.afterOutputs old).pending = e :: es := hp
    rw [step_of_cons hp, step_of_cons hp']
    exact deliver_afterOutputs e old (s.withPending es)

/-- Settles O7 (R17, R21): both steps are the step of the state with no output yet, each after its own
outputs, so the new outputs are those of that step. -/
theorem earlierOutputsDoNotMatter : Obligations.EarlierOutputsDoNotMatter := by
  unfold Obligations.EarlierOutputsDoNotMatter
  intro a es old old'
  rw [State.eq_afterOutputs_nil a es old, State.eq_afterOutputs_nil a es old',
    step_afterOutputs, step_afterOutputs]
  cases step ⟨a, es, []⟩ with
  | next u =>
    refine ⟨fun t h => ?_, nofun⟩
    cases h
    exact ⟨u.results, rfl, rfl⟩
  | fault f => exact nomatch f
  | refused r =>
    refine ⟨nofun, fun r' h => ?_⟩
    cases h
    rfl

end Sys2Proof.Machine
end

section
/-! The ordering rule as an invariant (R33): one edge changes `ACC` and the outputs as it changes
the account of the stream. -/

namespace Sys2Proof.Machine

theorem wordsSinceClear_snoc (done : List PortEdge) (e : PortEdge) :
    wordsSinceClear (done ++ [e]) = sinceClear (wordsSinceClear done) e :=
  List.foldl_concat ..

/-- What a stream is owed splits at any point, the later part continuing from the words absorbed in
the earlier one. -/
theorem owedResults_append (ws : List Word) (es fs : List PortEdge) :
    owedResults ws (es ++ fs) = owedResults ws es ++ owedResults (es.foldl sinceClear ws) fs := by
  induction es generalizing ws with
  | nil => rfl
  | cons e es ih =>
    simp only [List.cons_append, owedResults, List.foldl_cons, ih, List.append_assoc]

theorem sinceClear_of_rst {e : PortEdge} (ws : List Word) (h : e.rst = true) :
    sinceClear ws e = [] := if_pos h

theorem sinceClear_of_accepts_none {e : PortEdge} (ws : List Word) (hr : e.rst = false)
    (ha : e.accepts = none) : sinceClear ws e = ws := by
  simp [sinceClear, hr, ha]

theorem owedResults_singleton_of_accepts_none {e : PortEdge} (ws : List Word)
    (ha : e.accepts = none) : owedResults ws [e] = [] := by
  simp [owedResults, ha]

/-- `t` follows `s` as the account says of edge `e`, the words `ws` having been absorbed before it:
`ACC` is the checksum of the words that `e` leaves absorbed, and the outputs grow by what `e` is
owed. -/
structure FollowsAccount (ws : List Word) (e : PortEdge) (s t : State) : Prop where
  pending_eq : t.pending = s.pending
  acc_eq : t.acc = crc32 (sinceClear ws e)
  results_eq : t.results = s.results ++ owedResults ws [e]

/-- An edge that accepts nothing and does not reset: the state that stays as it is follows it. -/
theorem followsAccount_self {ws : List Word} {e : PortEdge} {s : State} (hs : s.acc = crc32 ws)
    (hr : e.rst = false) (ha : e.accepts = none) : FollowsAccount ws e s s where
  pending_eq := rfl
  acc_eq := by rw [sinceClear_of_accepts_none ws hr ha, hs]
  results_eq := by rw [owedResults_singleton_of_accepts_none ws ha, List.append_nil]

/-- A reset edge: the checksum of no words is what reset writes (R105). -/
theorem followsAccount_applyReset {e : PortEdge} (ws : List Word) (s : State) (hr : e.rst = true)
    (ha : e.accepts = none) : FollowsAccount ws e s s.applyReset where
  pending_eq := rfl
  acc_eq := by rw [sinceClear_of_rst ws hr]; rfl
  results_eq := by
    rw [owedResults_singleton_of_accepts_none ws ha, List.append_nil, State.applyReset_results]

/-- An edge that accepts a command: `CLR` starts a new sequence, `WORD` adds to the one there is,
and `RD` is owed that one's checksum. -/
theorem followsAccount_of_exec {ws : List Word} {e : PortEdge} {i : Instr} {s t : State}
    (hs : s.acc = crc32 ws) (hr : e.rst = false) (ha : e.accepts = some i)
    (h : exec i s = .next t) : FollowsAccount ws e s t := by
  rcases exec_cases h with ⟨rfl, ht⟩ | ⟨w, rfl, ht⟩ | ⟨rfl, ht⟩ <;> cases ht
  case inl =>
    exact ⟨rfl, by simp [sinceClear, hr, ha, crc32], by simp [owedResults, ha]⟩
  case inr.inl =>
    exact ⟨rfl, by simp [sinceClear, hr, ha, hs, crc32, absorb_snoc], by simp [owedResults, ha]⟩
  case inr.inr =>
    exact ⟨rfl, by simp [sinceClear, hr, ha, hs], by simp [owedResults, ha, hs]⟩

/-- Whatever an edge does, the state it goes on to follows the account. -/
theorem followsAccount_of_deliver {ws : List Word} {e : PortEdge} {s t : State}
    (hs : s.acc = crc32 ws) (h : deliver e s = .next t) : FollowsAccount ws e s t := by
  rcases deliver_cases e s with ⟨hr, ha, hd⟩ | ⟨hr, _, ha, hd⟩ | ⟨_, _, _, _, _, hd⟩ |
    ⟨_, hr, _, _, _, ha, hd⟩ | ⟨i, hr, _, _, _, ha, hd⟩ <;> rw [hd] at h
  · cases h; exact followsAccount_applyReset ws s hr ha
  · cases h; exact followsAccount_self hs hr ha
  · cases h
  · cases h; exact followsAccount_self hs hr ha
  · exact followsAccount_of_exec hs hr ha h

/-- Settles O30 (R33): a step with no edge left holds the state, and one that delivers an edge moves
that edge to the part already presented, whose account the new state follows. -/
theorem stepKeepsStateAccountedFor : Obligations.StepKeepsStateAccountedFor := by
  unfold Obligations.StepKeepsStateAccountedFor
  rintro stream s t ⟨done, hstream, hacc, hresults⟩ h
  rcases step_next_cases h with ⟨_, rfl⟩ | ⟨e, es, hp, hd⟩
  · exact ⟨done, hstream, hacc, hresults⟩
  · obtain ⟨hpending', hacc', hresults'⟩ :=
      followsAccount_of_deliver (s := s.withPending es) hacc hd
    refine ⟨done ++ [e], ?_, ?_, ?_⟩
    · rw [hstream, hp, hpending', State.withPending_pending, List.append_assoc,
        List.singleton_append]
    · rw [hacc', wordsSinceClear_snoc]
    · rw [hresults', State.withPending_results, hresults, owedResults_append]; rfl

end Sys2Proof.Machine
end

section
/-! The bytes of a word sequence, and absorption as the fold over them (R26). -/

namespace Sys2Proof.Machine

theorem bytesOf_eq_flatMap (ws : List Word) : bytesOf ws = ws.flatMap (fun w => [lo w, hi w]) := by
  induction ws with
  | nil => rfl
  | cons w ws ih => rw [bytesOf_cons, ih]; rfl

theorem length_bytesOf (ws : List Word) : (bytesOf ws).length = 2 * ws.length := by
  induction ws with
  | nil => rfl
  | cons w ws ih => simp only [bytesOf_cons, List.length_cons, ih]; omega

/-- A word step is the byte steps of its two bytes, so absorbing words folds over their bytes. -/
theorem absorb_eq_foldl_byteStep (a : Acc) (ws : List Word) :
    absorb a ws = (bytesOf ws).foldl byteStep a := by
  induction ws generalizing a with
  | nil => rfl
  | cons w ws ih => exact ih (wordStep a w)

/-- Settles O20 (R26): the order of the bytes, their number, and the fold over them. -/
theorem wordsAreAbsorbedLowByteFirst : Obligations.WordsAreAbsorbedLowByteFirst := by
  unfold Obligations.WordsAreAbsorbedLowByteFirst
  exact fun a ws => ⟨bytesOf_eq_flatMap ws, length_bytesOf ws, absorb_eq_foldl_byteStep a ws⟩

end Sys2Proof.Machine
end

section
/-! The command word (R40 to R46): it is its two fields, and the decoder and the encoder are inverse
to each other. -/

namespace Sys2Proof

/-- A command word is determined by its two fields (R40). -/
theorem CmdWord.eq_of_fields {x y : CmdWord} (hop : opField x = opField y)
    (hdata : dataField x = dataField y) : x = y := by
  refine BitVec.eq_of_toNat_eq ?_
  have hop' := congrArg BitVec.toNat hop
  have hdata' := congrArg BitVec.toNat hdata
  rw [opField_toNat, opField_toNat] at hop'
  rw [dataField_toNat, dataField_toNat] at hdata'
  omega

theorem encode_word_toNat (w : Word) : (encode (.word w)).toNat = 0x20000 + w.toNat := by
  have hw := w.isLt
  simp only [encode, BitVec.toNat_add, BitVec.toNat_setWidth, BitVec.toNat_ofNat]
  omega

@[simp] theorem opField_encode_word (w : Word) : opField (encode (.word w)) = 0b10#2 := by
  refine BitVec.eq_of_toNat_eq ?_
  have hw := w.isLt
  rw [opField_toNat, encode_word_toNat, BitVec.toNat_ofNat]
  omega

@[simp] theorem dataField_encode_word (w : Word) : dataField (encode (.word w)) = w := by
  refine BitVec.eq_of_toNat_eq ?_
  have hw := w.isLt
  rw [dataField_toNat, encode_word_toNat]
  omega

theorem decode_eq_clr_iff (x : CmdWord) :
    decode x = .ok .clr ↔ opField x = 0b01#2 ∧ dataField x = 0#16 := by
  rcases decode_cases x with ⟨h, d, e⟩ | ⟨h, d, e⟩ | ⟨h, e⟩ | ⟨h, d, e⟩ | ⟨h, d, e⟩ | ⟨h, e⟩ <;>
    simp [*]

theorem decode_eq_word_iff (x : CmdWord) (w : Word) :
    decode x = .ok (.word w) ↔ opField x = 0b10#2 ∧ w = dataField x := by
  rcases decode_cases x with ⟨h, d, e⟩ | ⟨h, d, e⟩ | ⟨h, e⟩ | ⟨h, d, e⟩ | ⟨h, d, e⟩ | ⟨h, e⟩ <;>
    simp [h, e, eq_comm (a := w)]

theorem decode_eq_rd_iff (x : CmdWord) :
    decode x = .ok .rd ↔ opField x = 0b11#2 ∧ dataField x = 0#16 := by
  rcases decode_cases x with ⟨h, d, e⟩ | ⟨h, d, e⟩ | ⟨h, e⟩ | ⟨h, d, e⟩ | ⟨h, d, e⟩ | ⟨h, e⟩ <;>
    simp [*]

/-- Encoding loses nothing: the fields of a command's word are those that decode to it. -/
@[simp] theorem decode_encode (i : Instr) : decode (encode i) = .ok i := by
  cases i with
  | clr => rfl
  | word w =>
    exact (decode_eq_word_iff _ w).2 ⟨opField_encode_word w, (dataField_encode_word w).symm⟩
  | rd => rfl

/-- A defined word has no bit beyond what its command determines. -/
theorem encode_of_decode_eq_ok {x : CmdWord} {i : Instr} (h : decode x = .ok i) :
    encode i = x := by
  cases i with
  | clr =>
    obtain ⟨hop, hdata⟩ := (decode_eq_clr_iff x).1 h
    exact CmdWord.eq_of_fields hop.symm hdata.symm
  | word w =>
    obtain ⟨hop, rfl⟩ := (decode_eq_word_iff x w).1 h
    exact CmdWord.eq_of_fields ((opField_encode_word _).trans hop.symm) (dataField_encode_word _)
  | rd =>
    obtain ⟨hop, hdata⟩ := (decode_eq_rd_iff x).1 h
    exact CmdWord.eq_of_fields hop.symm hdata.symm

/-- Settles O11 (R46): the encodings by their definition, and the two directions of the inverse. -/
theorem encodeAndDecodeAreInverse : Obligations.EncodeAndDecodeAreInverse := by
  unfold Obligations.EncodeAndDecodeAreInverse
  exact ⟨rfl, rfl, encode_word_toNat, decode_encode, fun _ _ => encode_of_decode_eq_ok⟩

/-- Settles O12 (R41): one row of the opcode map for each command, and a refusal for every word that
no row takes. -/
theorem decoderFollowsTheOpcodeMap : Obligations.DecoderFollowsTheOpcodeMap := by
  unfold Obligations.DecoderFollowsTheOpcodeMap
  refine fun x => ⟨decode_eq_clr_iff x, decode_eq_word_iff x, decode_eq_rd_iff x, fun h => ?_⟩
  cases hx : decode x with
  | ok i => exact absurd hx (h i)
  | error why => exact ⟨why, rfl⟩

end Sys2Proof
end

section
/-! The reserved words (R44): which the decoder refuses, and how many they are. -/

namespace Sys2Proof

/-- Whether the decoder refuses a command word. -/
def isRefused (x : CmdWord) : Bool :=
  match decode x with
  | .ok _ => false
  | .error _ => true

theorem isRefused_iff_decode_eq_error (x : CmdWord) :
    isRefused x = true ↔ ∃ why, decode x = .error why := by
  cases h : decode x <;> simp [isRefused, h]

/-- The numbers that R44 lists, by fields: `op = 00`, or data where `CLR` and `RD` have none. -/
theorem isReservedWord_iff_fields (x : CmdWord) :
    Machine.IsReservedWord x ↔ opField x = 0b00#2 ∨ (opField x = 0b01#2 ∧ dataField x ≠ 0#16) ∨
      (opField x = 0b11#2 ∧ dataField x ≠ 0#16) := by
  have hx := x.isLt
  simp only [Machine.IsReservedWord, ne_eq, BitVec.toNat_eq, opField_toNat, dataField_toNat,
    BitVec.toNat_ofNat]
  omega

/-- The decoder refuses exactly the words that R44 lists by number. -/
theorem decode_eq_error_iff (x : CmdWord) :
    (∃ why, decode x = .error why) ↔ Machine.IsReservedWord x := by
  rw [isReservedWord_iff_fields]
  rcases decode_cases x with ⟨h, d, e⟩ | ⟨h, d, e⟩ | ⟨h, e⟩ | ⟨h, d, e⟩ | ⟨h, d, e⟩ | ⟨h, e⟩ <;>
    simp [*]

/-- A number below `2^18` is refused as a command word exactly in the three ranges of R44. -/
theorem isRefused_ofNat_iff {n : Nat} (hn : n < 2 ^ 18) :
    isRefused (BitVec.ofNat 18 n) = true ↔
      n < 0x10000 ∨ (0x10000 < n ∧ n < 0x20000) ∨ 0x30000 < n := by
  rw [isRefused_iff_decode_eq_error, decode_eq_error_iff, Machine.IsReservedWord,
    BitVec.toNat_ofNat, Nat.mod_eq_of_lt hn]

theorem countP_range_eq_count (p : Nat → Bool) (n : Nat) :
    (List.range n).countP p = Nat.count (fun k => p k = true) n := by
  simp only [Nat.count, Bool.decide_eq_true]

/-- Of five stretches of numbers, the first, third and fifth count. -/
theorem countP_range_of_alternating (p : Nat → Bool) (a b c d e : Nat)
    (ha : ∀ k < a, p k = true) (hb : ∀ k < b, ¬ p (a + k) = true)
    (hc : ∀ k < c, p (a + b + k) = true) (hd : ∀ k < d, ¬ p (a + b + c + k) = true)
    (he : ∀ k < e, p (a + b + c + d + k) = true) :
    (List.range (a + b + c + d + e)).countP p = a + c + e := by
  rw [countP_range_eq_count]
  simp only [Nat.count_add, Nat.count_of_forall ha, Nat.count_of_forall_not hb,
    Nat.count_of_forall hc, Nat.count_of_forall_not hd, Nat.count_of_forall he, Nat.add_zero]

/-- The five stretches of the command words, reserved and defined in turn. -/
theorem countP_isRefused :
    (List.range (65536 + 1 + 65535 + 65537 + 65535)).countP
        (fun n => isRefused (BitVec.ofNat 18 n)) =
      65536 + 65535 + 65535 := by
  apply countP_range_of_alternating
  all_goals
    intro k hk
    rw [isRefused_ofNat_iff (by omega)]
    omega

/-- Settles O13 (R44): the ranges the decoder refuses, and the count of their words. -/
theorem decoderRefusesExactlyTheReservedWords :
    Obligations.DecoderRefusesExactlyTheReservedWords := by
  unfold Obligations.DecoderRefusesExactlyTheReservedWords
  refine ⟨fun x => ?_, countP_isRefused⟩
  rw [decode_eq_error_iff, Machine.IsReservedWord]
  omega

end Sys2Proof
end

section
/-! Commands on the port (R50, R52): an accepted edge runs its command, on a stream that no command
looks at. -/

namespace Sys2Proof.Machine

theorem deliver_of_decode_eq_ok {e : PortEdge} {i : Instr} (s : State) (hr : e.rst = false)
    (hv : e.cmdValid = true) (hd : decode e.cmd = .ok i) :
    deliver e s = if e.cmdReady then exec i s else .next s := by
  simp [deliver, hr, hv, hd]

/-- A command presented and accepted runs. -/
theorem deliver_acceptedEdge_encode (i : Instr) (s : State) :
    deliver (acceptedEdge (encode i)) s = exec i s :=
  deliver_of_decode_eq_ok (e := acceptedEdge (encode i)) s rfl rfl (decode_encode i)

/-- Settles O25 (R52). -/
theorem stepRunsTheDecodedCommand : Obligations.StepRunsTheDecodedCommand := by
  unfold Obligations.StepRunsTheDecodedCommand
  intro s e es i hp hr hv hc hd
  rw [step_of_cons hp, deliver_of_decode_eq_ok _ hr hv hd, if_pos hc]
  rfl

/-- Settles O26 (R52). -/
theorem commandNotAcceptedHasNoEffect : Obligations.CommandNotAcceptedHasNoEffect := by
  unfold Obligations.CommandNotAcceptedHasNoEffect
  intro s e es i hp hr hv hc hd
  rw [step_of_cons hp, deliver_of_decode_eq_ok _ hr hv hd, if_neg (by simp [hc])]
  rfl

/-- Every command goes on from every state (R62). -/
theorem exists_exec_eq_next (i : Instr) (s : State) : ∃ t, exec i s = .next t := by
  rcases exec_cases (rfl : exec i s = exec i s) with ⟨_, e⟩ | ⟨_, _, e⟩ | ⟨_, e⟩ <;> exact ⟨_, e⟩

/-- A command does the same whatever the host is going to present. -/
theorem exec_withPending_of_next {i : Instr} {s t : State} (es : List PortEdge)
    (h : exec i s = .next t) : exec i (s.withPending es) = .next (t.withPending es) := by
  rcases exec_cases h with ⟨rfl, e⟩ | ⟨w, rfl, e⟩ | ⟨rfl, e⟩ <;> cases e <;> rfl

/-- A state that presents commands runs the first of them in one step, and presents the rest. -/
theorem step_presenting_cons {i : Instr} {is : List Instr} {s t : State}
    (h : exec i s = .next t) : step (s.presenting (i :: is)) = .next (t.presenting is) := by
  have hs : (s.presenting (i :: is)).pending =
      acceptedEdge (encode i) :: (is.map (fun j => acceptedEdge (encode j)) ++ s.pending) := rfl
  have ht : t.presenting is =
      t.withPending (is.map (fun j => acceptedEdge (encode j)) ++ s.pending) := by
    rw [State.presenting, exec_next_pending h]
  rw [step_of_cons hs, deliver_acceptedEdge_encode, ht]
  exact exec_withPending_of_next (s := s) _ h

/-- Settles O29 (R50), by induction on the commands: each step of the machine is the next command's. -/
theorem presentedWordsRunAsCommands : Obligations.PresentedWordsRunAsCommands := by
  unfold Obligations.PresentedWordsRunAsCommands
  intro is
  induction is with
  | nil => exact fun _ => rfl
  | cons i is ih =>
    intro s
    obtain ⟨t, ht⟩ := exists_exec_eq_next i s
    rw [List.length_cons, run_succ_of_next _ (step_presenting_cons ht), ih t,
      runCommands_cons_of_next ht]

end Sys2Proof.Machine
end

section
/-! Numeric operands (R43). -/

namespace Sys2Proof

theorem SourceCommand.wellFormed_word_iff (n : Int) :
    (SourceCommand.word n).wellFormed = true ↔ 0 ≤ n ∧ n ≤ 0xFFFF := by
  simp [SourceCommand.wellFormed]

namespace Machine

/-- A number that fits the field is the number of its word. -/
theorem toNat_ofInt_of_fits {n : Int} (h : 0 ≤ n ∧ n ≤ 0xFFFF) :
    ((BitVec.ofInt 16 n).toNat : Int) = n := by
  rw [BitVec.toNat_ofInt]
  omega

/-- Settles O45 (R43): the check on the operand, and the word that a checked operand becomes. -/
theorem assemblerRejectsOperandsOutsideTheField :
    Obligations.AssemblerRejectsOperandsOutsideTheField := by
  unfold Obligations.AssemblerRejectsOperandsOutsideTheField
  refine fun n => ⟨fun h => ?_, fun h => ⟨BitVec.ofInt 16 n, ?_, toNat_ofInt_of_fits h⟩⟩
  · exact if_neg (by rw [SourceCommand.wellFormed_word_iff]; omega)
  · exact if_pos ((SourceCommand.wellFormed_word_iff n).2 h)

end Machine

end Sys2Proof
end

section
/-! What the pseudo-instructions expand to (R48, R70, R71, R79). -/

namespace Sys2Proof.Machine

/-- The words of a run are absorbed in their order. -/
theorem runCommands_map_word (ws : List Word) (s : State) :
    runCommands (ws.map Instr.word) s = .next (s.setAcc (absorb s.acc ws)) := by
  induction ws generalizing s with
  | nil => rfl
  | cons w ws ih => exact ih (s.setAcc (wordStep s.acc w))

/-- A transaction from any state: `CLR` makes the fold start from zero, `RD` gives its value (R71). -/
theorem runCommands_transaction (ws : List Word) (s : State) :
    runCommands (transaction ws) s = .next ((s.setAcc (crc32 ws)).present (crc32 ws)) := by
  have hclr : exec .clr s = .next (s.setAcc Config.accInit) := rfl
  rw [transaction, runCommands_cons_of_next hclr,
    runCommands_append_of_next (runCommands_map_word ws _)]
  rfl

theorem transaction_length (ws : List Word) : (transaction ws).length = ws.length + 2 := by
  simp [transaction]

@[simp] theorem wordsOf_lit (ws : List Word) : wordsOf (.lit ws) = ws := rfl

@[simp] theorem wordsOf_cat (s t : WordSeq) : wordsOf (.cat s t) = wordsOf s ++ wordsOf t := rfl

theorem wordsOf_rep_zero (s : WordSeq) : wordsOf (.rep s 0) = [] := rfl

theorem wordsOf_rep_succ (s : WordSeq) (n : Nat) :
    wordsOf (.rep s (n + 1)) = wordsOf s ++ wordsOf (.rep s n) := rfl

/-- A data block that lies in the image is its words by index (R79). -/
theorem dataBlock_eq_map_getD {image : List Word} {i b : Nat} (h : i * b + b ≤ image.length) :
    dataBlock image b i = (List.range b).map (fun j => image.getD (i * b + j) 0x0000#16) := by
  have hlen : (dataBlock image b i).length = b := by simp [dataBlock]; omega
  refine List.ext_getElem (by simp [hlen]) fun j hj _ => ?_
  have hin : i * b + j < image.length := by omega
  simp [dataBlock, hin]

/-- Block `i` of `n` lies in an image of `n * b` words. -/
theorem block_end_le {image : List Word} {n b i : Nat} (hlen : image.length = n * b) (hi : i < n) :
    i * b + b ≤ image.length := by
  rw [hlen, ← Nat.succ_mul]
  exact Nat.mul_le_mul_right b hi

theorem expand_golden_eq_flatMap {image : List Word} {n b : Nat} (hlen : image.length = n * b) :
    expand (.golden image n b) =
      (List.range n).flatMap (fun i =>
        expand (.crc32 (.lit ((List.range b).map (fun j => image.getD (i * b + j) 0x0000#16))))) := by
  rw [expand, dataBlocks, List.flatMap_map]
  refine List.flatMap_congr fun i hi => ?_
  rw [dataBlock_eq_map_getD (block_end_le hlen (List.mem_range.1 hi)), expand, wordsOf_lit]

/-- Settles O41 (R48): the transaction `CRC32` expands to and what it answers, the words of each
sequence form, and the data blocks of `GOLDEN` by index. -/
theorem pseudoInstructionsExpand : Obligations.PseudoInstructionsExpand := by
  unfold Obligations.PseudoInstructionsExpand
  refine ⟨fun seq s => ⟨rfl, transaction_length _, runCommands_transaction _ s⟩, wordsOf_lit,
    wordsOf_cat, fun seq n => ⟨wordsOf_rep_zero seq, wordsOf_rep_succ seq n⟩,
    fun _ _ _ hlen => expand_golden_eq_flatMap hlen⟩

end Sys2Proof.Machine
end

section
/-! A written sequence as tokens (R48): what the text of the elements of a list is cut into. -/

namespace Sys2Proof.Machine

/-- The tokens of the elements of a written list. -/
def itemTokens : List Word → List (List Char)
  | [] => []
  | [w] => [renderValue w]
  | w :: ws => renderValue w :: [','] :: itemTokens ws

/-- The tokens of a sequence written as the elements of a list. -/
def elementTokens : WordSeq → List (List Char)
  | .lit ws => itemTokens ws
  | .rep s n => ['['] :: elementTokens s ++ [[']'], ['*'], Nat.toDigits 10 n]
  | .cat s t => elementTokens s ++ [','] :: elementTokens t

/-- Plain characters up to a punctuation mark are one token, and the mark the next. -/
theorem tokensFrom_plain_punctuation {tok : List Char} (rest : List Char) {c : Char}
    (hne : tok ≠ []) (htok : ∀ d ∈ tok, d ≠ ' ' ∧ isPunctuation d = false) (hb : c ≠ ' ')
    (hp : isPunctuation c = true) :
    tokensFrom [] (tok ++ c :: rest) = tok :: [c] :: tokensFrom [] rest := by
  rw [tokensFrom_plain _ _ _ htok, List.nil_append, tokensFrom_punctuation _ _ hb hp,
    pendingToken, if_neg hne, List.singleton_append]

/-- A blank before a token, as after a comma, leaves no trace. -/
theorem tokensFrom_blank_nil (rest : List Char) :
    tokensFrom [] (' ' :: rest) = tokensFrom [] rest := tokensFrom_blank [] rest

theorem renderItems_cons_cons (w v : Word) (vs : List Word) :
    renderItems (w :: v :: vs) = renderValue w ++ ',' :: ' ' :: renderItems (v :: vs) := by
  simp [renderItems]

theorem itemTokens_cons_cons (w v : Word) (vs : List Word) :
    itemTokens (w :: v :: vs) = renderValue w :: [','] :: itemTokens (v :: vs) := rfl

theorem renderValue_ne_nil (w : Word) : renderValue w ≠ [] := nofun

theorem tokensFrom_renderItems {ws : List Word} (hws : ws ≠ []) (rest : List Char) {c : Char}
    (hb : c ≠ ' ') (hp : isPunctuation c = true) :
    tokensFrom [] (renderItems ws ++ c :: rest) = itemTokens ws ++ [c] :: tokensFrom [] rest := by
  induction ws with
  | nil => exact absurd rfl hws
  | cons w ws ih =>
    cases ws with
    | nil =>
      exact tokensFrom_plain_punctuation rest (renderValue_ne_nil w) (renderValue_plain w) hb hp
    | cons v vs =>
      rw [renderItems_cons_cons, List.append_assoc, List.cons_append, List.cons_append,
        tokensFrom_plain_punctuation _ (renderValue_ne_nil w) (renderValue_plain w) (by decide)
          (by decide), tokensFrom_blank_nil, ih (by simp), itemTokens_cons_cons]
      rfl

/-- The text of a sequence's elements is cut into its tokens, whatever mark stands after it. -/
theorem tokensFrom_renderElements {seq : WordSeq} (h : hasElements seq = true) (rest : List Char)
    {c : Char} (hb : c ≠ ' ') (hp : isPunctuation c = true) :
    tokensFrom [] (renderElements seq ++ c :: rest) =
      elementTokens seq ++ [c] :: tokensFrom [] rest := by
  induction seq generalizing rest c with
  | lit ws =>
    exact tokensFrom_renderItems (by rintro rfl; simp [hasElements] at h) rest hb hp
  | rep s n ih =>
    have hdigits : ∀ d ∈ Nat.toDigits 10 n, d ≠ ' ' ∧ isPunctuation d = false :=
      fun d hd => ⟨(toDigits_plain n d hd).1, (toDigits_plain n d hd).2.1⟩
    simp only [renderElements, elementTokens, List.append_assoc, List.cons_append, List.nil_append]
    rw [tokensFrom_punctuation _ _ (by decide) (by decide), ih h _ (by decide) (by decide),
      tokensFrom_punctuation _ _ (by decide) (by decide),
      tokensFrom_plain_punctuation rest Nat.toDigits_ne_nil hdigits hb hp]
    rfl
  | cat s t ihs iht =>
    rw [hasElements, Bool.and_eq_true] at h
    simp only [renderElements, elementTokens, List.append_assoc, List.cons_append, List.nil_append]
    rw [ihs h.1 _ (by decide) (by decide), tokensFrom_blank_nil, iht h.2 rest hb hp]

theorem hexDigit_ne_semicolon (v : BitVec 4) : hexDigit v ≠ ';' :=
  bne_iff_ne.1 (hexDigit_props v).2.2.1

/-- No character of a value begins a comment. -/
theorem renderValue_no_comment (w : Word) : ∀ c ∈ renderValue w, (c != ';') = true := by
  simp [renderValue, hexDigit_ne_semicolon]

theorem renderItems_no_comment (ws : List Word) : ∀ c ∈ renderItems ws, (c != ';') = true := by
  induction ws with
  | nil => nofun
  | cons w ws ih =>
    cases ws with
    | nil => exact renderValue_no_comment w
    | cons v vs =>
      rw [renderItems_cons_cons, List.forall_mem_append, List.forall_mem_cons, List.forall_mem_cons]
      exact ⟨renderValue_no_comment w, by decide, by decide, ih⟩

theorem renderElements_no_comment (seq : WordSeq) :
    ∀ c ∈ renderElements seq, (c != ';') = true := by
  induction seq with
  | lit ws => exact renderItems_no_comment ws
  | rep s n ih =>
    simp only [renderElements, List.forall_mem_append]
    exact ⟨⟨⟨by simp, ih⟩, by simp⟩, fun c hc => (toDigits_plain n c hc).2.2⟩
  | cat s t ihs iht =>
    simp only [renderElements, List.forall_mem_append]
    exact ⟨⟨ihs, by simp⟩, iht⟩

theorem stripComment_of_no_comment {line : List Char} (h : ∀ c ∈ line, (c != ';') = true) :
    stripComment line = line := List.takeWhile_eq_self_iff.2 h

end Sys2Proof.Machine
end

section
/-! The tokens of a sequence's elements are parsed to a sequence of the same words (R48). -/

namespace Sys2Proof.Machine

/-- With a fuel that the number of tokens bounds, the tokens are parsed as the elements of a list: to
a sequence that stands for `ws`, up to the tokens `more` after the list's `]`. -/
def ParsesTo (ts : List (List Char)) (ws : List Word) (more : List (List Char)) : Prop :=
  ∀ fuel, ts.length ≤ fuel → ∃ r, parseElements fuel ts = some (r, more) ∧ wordsOf r = ws

/-- What may stand after an element of a list: its `]`, or a comma and elements that stand for
`ws`. -/
inductive ContinuesTo (more : List (List Char)) : List (List Char) → List Word → Prop where
  | close : ContinuesTo more ([']'] :: more) []
  | comma {ts : List (List Char)} {ws : List Word} (h : ParsesTo ts ws more) :
      ContinuesTo more ([','] :: ts) ws

/-- One element and what may stand after it make the elements of a list. -/
theorem parseElements_of_element {fuel : Nat} {ts after more : List (List Char)} {e : WordSeq}
    {ws : List Word} (he : parseElement (parseElements fuel) ts = some (e, after))
    (hafter : ContinuesTo more after ws) (hfuel : after.length ≤ fuel + 1) :
    ∃ r, parseElements (fuel + 1) ts = some (r, more) ∧ wordsOf r = wordsOf e ++ ws := by
  cases hafter with
  | close => exact ⟨e, by simp [parseElements, he], by simp⟩
  | comma h =>
    obtain ⟨r, hr, hws⟩ := h fuel (by simpa using hfuel)
    exact ⟨.cat e r, by simp [parseElements, he, hr], by rw [← hws]; rfl⟩

theorem parseElement_value (elements : List (List Char) → Option (WordSeq × List (List Char)))
    (w : Word) (after : List (List Char)) :
    parseElement elements (renderValue w :: after) = some (.lit [w], after) := by
  have hbracket : renderValue w ≠ ['['] := by simp [renderValue]
  simp [parseElement, hbracket, parseValue_renderValue]

theorem parseElement_repetition
    {elements : List (List Char) → Option (WordSeq × List (List Char))}
    {ts after : List (List Char)} {r : WordSeq} {n : Nat} (hts : ts.head? ≠ some [']'])
    (h : elements ts = some (r, ['*'] :: Nat.toDigits 10 n :: after)) :
    parseElement elements (['['] :: ts) = some (.rep r n, after) := by
  simp [parseElement, parseBody, hts, h, parseCount, parseDecimal_toDigits]

/-- A value first, then what may stand after it. -/
theorem parsesTo_value (w : Word) {after more : List (List Char)} {ws : List Word}
    (h : ContinuesTo more after ws) : ParsesTo (renderValue w :: after) (w :: ws) more := by
  rintro (_ | fuel) hfuel
  · simp at hfuel
  · exact parseElements_of_element (parseElement_value _ w after) h (by simp at hfuel; omega)

theorem parsesTo_itemTokens {ws : List Word} (hws : ws ≠ []) {after more : List (List Char)}
    {us : List Word} (h : ContinuesTo more after us) :
    ParsesTo (itemTokens ws ++ after) (ws ++ us) more := by
  induction ws with
  | nil => exact absurd rfl hws
  | cons w ws ih =>
    cases ws with
    | nil => exact parsesTo_value w h
    | cons v vs => exact parsesTo_value w (.comma (ih (by simp)))

theorem elementTokens_head_ne_close {seq : WordSeq} (h : hasElements seq = true)
    (after : List (List Char)) : (elementTokens seq ++ after).head? ≠ some [']'] := by
  induction seq generalizing after with
  | lit ws =>
    match ws, h with
    | [w], _ => simp [elementTokens, itemTokens, renderValue]
    | w :: v :: vs, _ => simp [elementTokens, itemTokens, renderValue]
  | rep s n _ => simp [elementTokens]
  | cat s t ihs _ =>
    rw [hasElements, Bool.and_eq_true] at h
    rw [elementTokens, List.append_assoc]
    exact ihs h.1 _

theorem wordsOf_rep_congr {r s : WordSeq} (n : Nat) (h : wordsOf r = wordsOf s) :
    wordsOf (.rep r n) = wordsOf (.rep s n) := by
  rw [wordsOf, wordsOf, h]

/-- The tokens of a sequence's elements stand for its words, whatever may stand after them. -/
theorem parsesTo_elementTokens {seq : WordSeq} (hseq : hasElements seq = true)
    {after more : List (List Char)} {us : List Word} (h : ContinuesTo more after us) :
    ParsesTo (elementTokens seq ++ after) (wordsOf seq ++ us) more := by
  induction seq generalizing after more us with
  | lit ws => exact parsesTo_itemTokens (by rintro rfl; simp [hasElements] at hseq) h
  | rep s n ih =>
    rintro (_ | fuel) hfuel
    · simp [elementTokens] at hfuel
    · have hinner : ParsesTo (elementTokens s ++ [']'] :: ['*'] :: Nat.toDigits 10 n :: after)
          (wordsOf s ++ []) (['*'] :: Nat.toDigits 10 n :: after) := ih hseq .close
      simp only [elementTokens, List.cons_append, List.append_assoc, List.nil_append,
        List.length_cons, List.length_append] at hfuel ⊢
      obtain ⟨r, hr, hwords⟩ := hinner fuel (by simp; omega)
      have hrep := parseElement_repetition (elementTokens_head_ne_close (seq := s) hseq _) hr
      rw [List.append_nil] at hwords
      rw [← wordsOf_rep_congr n hwords]
      exact parseElements_of_element hrep h (by omega)
  | cat s t ihs iht =>
    rw [hasElements, Bool.and_eq_true] at hseq
    rw [elementTokens, wordsOf, List.append_assoc, List.append_assoc]
    exact ihs hseq.1 (.comma (iht hseq.2 h))

/-- A list of a sequence's elements is one sequence of the same words, with nothing after it. -/
theorem parseSeq_elementTokens {seq : WordSeq} (h : hasElements seq = true) :
    ∃ r, parseSeq (['['] :: (elementTokens seq ++ [[']']])) = some (r, []) ∧
      wordsOf r = wordsOf seq := by
  obtain ⟨r, hr, hwords⟩ := parsesTo_elementTokens h (ContinuesTo.close (more := [])) _ le_rfl
  refine ⟨r, ?_, by rw [hwords, List.append_nil]⟩
  simp only [parseSeq, parseList, if_pos, parseBody, if_neg (elementTokens_head_ne_close h _), hr]
  rfl

theorem tokensFrom_renderCrc32Elements {seq : WordSeq} (h : hasElements seq = true) :
    tokensFrom [] (renderCrc32Elements seq) =
      ['C', 'R', 'C', '3', '2'] :: ['['] :: (elementTokens seq ++ [[']']]) := by
  have hlist := tokensFrom_renderElements h [] (c := ']') (by decide) (by decide)
  rw [renderCrc32Elements, List.append_assoc,
    show ['C', 'R', 'C', '3', '2', ' ', '['] = ['C', 'R', 'C', '3', '2'] ++ [' ', '['] from rfl,
    List.append_assoc, tokensFrom_plain _ _ _ (by simp [isPunctuation])]
  simp only [List.cons_append, List.nil_append]
  rw [tokensFrom_blank, tokensFrom_punctuation _ _ (by decide) (by decide), hlist]
  rfl

theorem renderCrc32Elements_no_comment (seq : WordSeq) :
    ∀ c ∈ renderCrc32Elements seq, (c != ';') = true := by
  simp only [renderCrc32Elements, List.forall_mem_append]
  exact ⟨⟨by simp, renderElements_no_comment seq⟩, by simp⟩

/-- A `CRC32` line whose operand is parsed to a sequence gives that sequence's pseudo-instruction. -/
theorem parseTokens_crc32 {ts : List (List Char)} {r : WordSeq} (h : parseSeq ts = some (r, [])) :
    parseTokens (['C', 'R', 'C', '3', '2'] :: ts) = .ok (some (.pseudo (.crc32 r))) := by
  simp [parseTokens, parseCrc32, h]

theorem assembleSource_crc32 (r : WordSeq) :
    assembleSource (.pseudo (.crc32 r)) = .ok (transaction (wordsOf r)) := rfl

/-- Settles O49 (R48): the line is cut into tokens, which are parsed to a sequence of the same
words. -/
theorem assemblerExpandsRepetitionsInsideBrackets :
    Obligations.AssemblerExpandsRepetitionsInsideBrackets := by
  unfold Obligations.AssemblerExpandsRepetitionsInsideBrackets
  intro seq h
  obtain ⟨r, hr, hwords⟩ := parseSeq_elementTokens h
  have hline : parseLine (renderCrc32Elements seq) = .ok (some (.pseudo (.crc32 r))) := by
    rw [parseLine, stripComment_of_no_comment (renderCrc32Elements_no_comment seq),
      tokensFrom_renderCrc32Elements h, parseTokens_crc32 hr]
  rw [← hwords, ← assembleSource_crc32, assembleLine, hline]

end Sys2Proof.Machine
end

section
/-! The byte step over natural numbers, with the masks of the source (R55, R57). -/

namespace Sys2Proof.Machine

/-- The 32-bit type drops what the mask after the shift drops (R57). -/
theorem toNat_shiftLeft_eight (a : Acc) : (a <<< 8).toNat = (a.toNat <<< 8) &&& 0xFFFFFFFF := by
  rw [BitVec.toNat_shiftLeft, Nat.and_two_pow_sub_one_eq_mod _ 32]

/-- No bit of the index is lost when the masked number is read as a byte. -/
theorem tableIndex_eq_ofNat (a : Acc) (b : Byte) :
    tableIndex a b = BitVec.ofNat 8 (((a.toNat >>> 24) ^^^ b.toNat) &&& 0xFF) := by
  have hb : b.toNat % 2 ^ 32 = b.toNat := Nat.mod_eq_of_lt (by omega)
  rw [tableIndex, ← BitVec.ofNat_toNat, BitVec.toNat_and, BitVec.toNat_xor,
    BitVec.toNat_ushiftRight, BitVec.toNat_setWidth, hb]
  rfl

/-- Settles O15 (R55, R57): the index and the shifted accumulator are the source's masked numbers, and
a shift by eight keeps `a[23:0]` before eight zero bits. -/
theorem byteStepIsTheSourceFormula : Obligations.ByteStepIsTheSourceFormula := by
  unfold Obligations.ByteStepIsTheSourceFormula
  intro a b
  constructor
  · rw [byteStep, BitVec.toNat_xor, toNat_shiftLeft_eight, tableIndex_eq_ofNat]
  · rw [← toNat_shiftLeft_eight, BitVec.shiftLeft_eq_concat_of_lt (by decide)]
    rfl

end Sys2Proof.Machine
end

section
/-! The commands one by one (R59 to R62): the state each answers, field by field. -/

namespace Sys2Proof.Machine

theorem exec_clr (s : State) : exec .clr s = .next ⟨0x00000000#32, s.pending, s.results⟩ := rfl

theorem exec_word (w : Word) (s : State) :
    exec (.word w) s = .next ⟨wordStep s.acc w, s.pending, s.results⟩ := rfl

theorem exec_rd (s : State) :
    exec .rd s = .next ⟨s.acc, s.pending, s.results ++ [s.acc]⟩ := rfl

/-- Settles O21 (R59). -/
theorem clrZeroesAccAndGivesNoOutput : Obligations.ClrZeroesAccAndGivesNoOutput := by
  unfold Obligations.ClrZeroesAccAndGivesNoOutput
  exact ⟨rfl, exec_clr⟩

/-- A step at an edge that presents an accepted command is that command's (R52). -/
theorem step_of_acceptedEdge_encode {i : Instr} {s : State} {es : List PortEdge}
    (h : s.pending = acceptedEdge (encode i) :: es) : step s = exec i (s.withPending es) := by
  rw [step_of_cons h, deliver_acceptedEdge_encode]

/-- Settles O22 (R60): a word step is by definition the two byte steps, and the step that accepts the
word is that one command. -/
theorem wordAbsorbsBothBytesInOneStep : Obligations.WordAbsorbsBothBytesInOneStep := by
  unfold Obligations.WordAbsorbsBothBytesInOneStep
  intro w s
  refine ⟨rfl, exec_word w s, fun es hp => ?_⟩
  exact (step_of_acceptedEdge_encode (i := .word w) hp).trans (exec_word w (s.withPending es))

/-- Settles O23 (R61): after an `RD` the rest runs from the same accumulator, a second `RD` or the
words alike. -/
theorem rdOutputsAccAndLeavesIt : Obligations.RdOutputsAccAndLeavesIt := by
  unfold Obligations.RdOutputsAccAndLeavesIt
  refine ⟨rfl, fun s => ⟨exec_rd s, ?twice, fun ws => ?words⟩⟩
  case twice =>
    rw [runCommands_cons_of_next (exec_rd s), runCommands_cons_of_next (exec_rd _),
      runCommands_nil, List.append_assoc, List.singleton_append]
  case words =>
    rw [runCommands_cons_of_next (exec_rd s), runCommands_map_word]
    rfl

/-- With neither reset nor a command presented, an edge changes nothing (R62). -/
theorem deliver_of_no_command {e : PortEdge} (s : State) (hr : e.rst = false)
    (hv : e.cmdValid = false) : deliver e s = .next s := by
  simp [deliver, hr, hv]

/-- Settles O24 (R62): one answer per command, and the edge without one. -/
theorem everyCommandIsDefinedOnEveryState : Obligations.EveryCommandIsDefinedOnEveryState := by
  unfold Obligations.EveryCommandIsDefinedOnEveryState
  constructor
  · intro i s
    cases i with
    | clr => exact exec_clr s
    | word w => exact exec_word w s
    | rd => exact exec_rd s
  · intro s e es hp hr hv
    rw [step_of_cons hp, deliver_of_no_command _ hr hv]
    rfl

end Sys2Proof.Machine
end

section
/-! What a transaction answers (R71, R73): the fold over its words, whatever ran before it. -/

namespace Sys2Proof.Machine

theorem absorb_eq_foldl_wordStep (a : Acc) (ws : List Word) : absorb a ws = ws.foldl wordStep a := by
  induction ws generalizing a with
  | nil => rfl
  | cons w ws ih => exact ih (wordStep a w)

/-- Settles O32 (R71): the run of a transaction, and its value as the fold over words and over
bytes. -/
theorem transactionReturnsCrc32 : Obligations.TransactionReturnsCrc32 := by
  unfold Obligations.TransactionReturnsCrc32
  intro ws s
  refine ⟨runCommands_transaction ws s, absorb_eq_foldl_wordStep _ ws, ?_⟩
  rw [crc32, absorb_eq_foldl_byteStep, bytesOf_eq_flatMap]
  rfl

/-- Every list of commands completes from every state (R62). -/
theorem exists_runCommands_eq_next (is : List Instr) (s : State) :
    ∃ t, runCommands is s = .next t := by
  induction is generalizing s with
  | nil => exact ⟨s, rfl⟩
  | cons i is ih =>
    obtain ⟨t, ht⟩ := exists_exec_eq_next i s
    rw [runCommands_cons_of_next ht]
    exact ih t

/-- The last output of a state that has just presented a value is that value. -/
theorem State.present_results_getLast? (v : Acc) (s : State) :
    (s.present v).results.getLast? = some v := by
  rw [State.present_results, List.getLast?_concat]

/-- Settles O33 (R73): the commands before complete in some state, and from every state a transaction
presents its checksum last. -/
theorem transactionResultIgnoresThePast : Obligations.TransactionResultIgnoresThePast := by
  unfold Obligations.TransactionResultIgnoresThePast
  intro ws before s s'
  obtain ⟨u, hu⟩ := exists_runCommands_eq_next before s
  exact ⟨_, _, crc32 ws, (runCommands_append_of_next hu).trans (runCommands_transaction ws u),
    runCommands_transaction ws s', State.present_results_getLast? _ _,
    State.present_results_getLast? _ _⟩

end Sys2Proof.Machine
end

section
/-! The data blocks of an image and the golden run over them (R79, R80). -/

namespace Sys2Proof.Machine

/-- A run of transactions gives the checksum of each of their word sequences, in order. -/
theorem exists_runCommands_flatMap_transaction (blocks : List (List Word)) (s : State) :
    ∃ t, runCommands (blocks.flatMap transaction) s = .next t ∧
      t.results = s.results ++ blocks.map crc32 ∧ t.pending = s.pending := by
  induction blocks generalizing s with
  | nil => exact ⟨s, rfl, (List.append_nil _).symm, rfl⟩
  | cons block blocks ih =>
    obtain ⟨t, hrun, hresults, hpending⟩ := ih ((s.setAcc (crc32 block)).present (crc32 block))
    refine ⟨t, ?_, ?_, hpending⟩
    · rw [List.flatMap_cons, runCommands_append_of_next (runCommands_transaction block s), hrun]
    · rw [hresults, State.present_results, State.setAcc_results, List.append_assoc]
      rfl

theorem goldenTable_length (image : List Word) (n b : Nat) : (goldenTable image n b).length = n := by
  simp [goldenTable, dataBlocks]

theorem goldenTable_getElem? (image : List Word) (b : Nat) {n i : Nat} (hi : i < n) :
    (goldenTable image n b)[i]? = some (crc32 (dataBlock image b i)) := by
  simp [goldenTable, dataBlocks, hi]

/-- Settles O42 (R79): the golden run is one transaction per data block, so its outputs are the golden
table. -/
theorem goldenRunReturnsBlockChecksums : Obligations.GoldenRunReturnsBlockChecksums := by
  unfold Obligations.GoldenRunReturnsBlockChecksums
  intro image n b s hlen
  obtain ⟨t, hrun, hresults, hpending⟩ :=
    exists_runCommands_flatMap_transaction (dataBlocks image n b) s
  refine ⟨t, goldenTable image n b, hrun, hresults, hpending, goldenTable_length image n b,
    fun i hi => ?_⟩
  rw [goldenTable_getElem? image b hi, dataBlock_eq_map_getD (block_end_le hlen hi)]

theorem dataBlocks_succ (image : List Word) (n b : Nat) :
    dataBlocks image (n + 1) b = dataBlocks image n b ++ [dataBlock image b n] := by
  simp [dataBlocks, List.range_succ]

/-- The first `n` data blocks joined are the first `n * b` words: block `n` begins where they end. -/
theorem dataBlocks_flatten (image : List Word) (n b : Nat) :
    (dataBlocks image n b).flatten = image.take (n * b) := by
  induction n with
  | zero => simp [dataBlocks]
  | succ n ih =>
    rw [dataBlocks_succ, List.flatten_append, ih, List.flatten_singleton, dataBlock, Nat.succ_mul,
      List.take_add]

theorem dataBlock_length {image : List Word} {b i : Nat} (h : i * b + b ≤ image.length) :
    (dataBlock image b i).length = b := by
  rw [dataBlock_eq_map_getD h, List.length_map, List.length_range]

/-- A data block is determined by the words of the image at its indices. -/
theorem dataBlock_congr {image image' : List Word} {b i : Nat}
    (h : ∀ j < b, image'[i * b + j]? = image[i * b + j]?) :
    dataBlock image' b i = dataBlock image b i := by
  refine List.ext_getElem? fun j => ?_
  by_cases hj : j < b
  · simpa [dataBlock, List.getElem?_take, hj] using h j hj
  · simp [dataBlock, hj]

/-- Settles O43 (R80): the blocks joined, their length, and a golden value as the checksum of its
block. -/
theorem dataBlocksPartitionTheImage : Obligations.DataBlocksPartitionTheImage := by
  unfold Obligations.DataBlocksPartitionTheImage
  intro image n b hlen
  refine ⟨?joined, fun block hblock => ?size, fun image' _ i hi hagree => ?value⟩
  case joined => rw [dataBlocks_flatten, ← hlen, List.take_length]
  case size =>
    obtain ⟨i, hi, rfl⟩ := List.mem_map.1 hblock
    exact dataBlock_length (block_end_le hlen (List.mem_range.1 hi))
  case value =>
    rw [goldenTable_getElem? image' b hi, goldenTable_getElem? image b hi, dataBlock_congr hagree]

end Sys2Proof.Machine
end

section
/-! Several engines side by side (R82, R97): a command changes only the engine it is issued on. -/

namespace Sys2Proof.Machine

theorem commandsFor_cons_self (k : Nat) (i : Instr) (rest : List (Nat × Instr)) :
    commandsFor k ((k, i) :: rest) = i :: commandsFor k rest := by
  simp [commandsFor]

theorem commandsFor_cons_of_ne {k m : Nat} (h : m ≠ k) (i : Instr) (rest : List (Nat × Instr)) :
    commandsFor k ((m, i) :: rest) = commandsFor k rest := by
  simp [commandsFor, h]

/-- A command issued on an engine there is takes that engine to its next state and no other. -/
theorem runSchedule_cons_of_next {m : Nat} {i : Instr} {rest : List (Nat × Instr)} {es : List State}
    {s t : State} (hm : es[m]? = some s) (h : exec i s = .next t) :
    runSchedule ((m, i) :: rest) es = runSchedule rest (es.set m t) := by
  simp only [runSchedule, issueOn, hm, h]

/-- Settles O44 (R82, R97), by induction on the schedule: its first command is the first of its own
engine's commands, and leaves every other engine's state and commands as they are. -/
theorem enginesAreIndependent : Obligations.EnginesAreIndependent := by
  unfold Obligations.EnginesAreIndependent
  intro schedule
  induction schedule with
  | nil => exact fun es _ => ⟨es, rfl, rfl, fun k s hs => ⟨s, hs, rfl⟩⟩
  | cons c rest ih =>
    obtain ⟨m, i⟩ := c
    intro es hengines
    obtain ⟨hm, hrest⟩ := List.forall_mem_cons.1 hengines
    have hold : es[m]? = some es[m] := List.getElem?_eq_getElem hm
    obtain ⟨u, hu⟩ := exists_exec_eq_next i es[m]
    obtain ⟨es', hrun, hlen, hends⟩ := ih (es.set m u) (by simpa using hrest)
    refine ⟨es', (runSchedule_cons_of_next hold hu).trans hrun, by rw [hlen, List.length_set],
      fun k s hs => ?_⟩
    by_cases hk : m = k
    case pos =>
      subst hk
      obtain rfl : es[m] = s := Option.some.inj (hold.symm.trans hs)
      rw [commandsFor_cons_self, runCommands_cons_of_next hu]
      exact hends m u (List.getElem?_set_self hm)
    case neg =>
      rw [commandsFor_cons_of_ne hk]
      exact hends k s ((List.getElem?_set_ne hk).trans hs)

end Sys2Proof.Machine
end

section
/-! Exceptions and priority (R93, R98): a step takes one edge off the stream, reset wins at its edge,
and a host that presents only defined words is always answered. -/

namespace Sys2Proof.Machine

/-- No edge looks at the stream that follows it. -/
theorem deliver_next_pending {e : PortEdge} {s t : State} (h : deliver e s = .next t) :
    t.pending = s.pending := by
  rcases deliver_cases e s with ⟨_, _, hd⟩ | ⟨_, _, _, hd⟩ | ⟨_, _, _, _, _, hd⟩ |
    ⟨_, _, _, _, _, _, hd⟩ | ⟨i, _, _, _, _, _, hd⟩ <;> rw [hd] at h
  case inl => cases h; rfl
  case inr.inl => cases h; rfl
  case inr.inr.inl => cases h
  case inr.inr.inr.inl => cases h; rfl
  case inr.inr.inr.inr => exact exec_next_pending h

theorem step_next_pending {s t : State} (h : step s = .next t) : t.pending = s.pending.tail := by
  rcases step_next_cases h with ⟨hp, rfl⟩ | ⟨e, es, hp, hd⟩
  · rw [hp, List.tail_nil]
  · rw [deliver_next_pending hd, hp, State.withPending_pending, List.tail_cons]

/-- Reset wins, whatever is on the command port (R93). -/
theorem deliver_of_rst {e : PortEdge} (s : State) (hr : e.rst = true) :
    deliver e s = .next s.applyReset := by
  simp [deliver, hr]

theorem step_of_rst (a : Acc) (es : List PortEdge) (out : List Acc) (valid ready : Bool)
    (cmd : CmdWord) :
    step ⟨a, ⟨true, valid, ready, cmd⟩ :: es, out⟩ = .next ⟨0x00000000#32, es, out⟩ :=
  (step_of_cons rfl).trans (deliver_of_rst _ rfl)

/-- Settles O3 (R93): both steps at the reset edge are equal because each is the reset. -/
theorem resetBeatsASimultaneousCommand : Obligations.ResetBeatsASimultaneousCommand := by
  unfold Obligations.ResetBeatsASimultaneousCommand
  refine ⟨fun _ _ h => step_next_pending h, fun a es out valid ready valid' ready' cmd cmd' => ?_⟩
  have hreset := step_of_rst a es out
  exact ⟨(hreset valid ready cmd).trans (hreset valid' ready' cmd').symm, hreset valid ready cmd⟩

/-- An edge goes on unless it presents a reserved word while reset is not asserted. -/
theorem exists_deliver_eq_next {e : PortEdge} (s : State)
    (h : e.rst = false → e.cmdValid = true → ¬ IsReservedWord e.cmd) :
    ∃ t, deliver e s = .next t := by
  rcases deliver_cases e s with ⟨_, _, hd⟩ | ⟨_, _, _, hd⟩ | ⟨why, hr, hv, hwhy, _, _⟩ |
    ⟨_, _, _, _, _, _, hd⟩ | ⟨i, _, _, _, _, _, hd⟩
  case inl => exact ⟨_, hd⟩
  case inr.inl => exact ⟨_, hd⟩
  case inr.inr.inl => exact absurd ((decode_eq_error_iff e.cmd).1 ⟨why, hwhy⟩) (h hr hv)
  case inr.inr.inr.inl => exact ⟨_, hd⟩
  case inr.inr.inr.inr => rw [hd]; exact exists_exec_eq_next i s

theorem State.HostKeepsContract.exists_step_eq_next {s : State} (hs : s.HostKeepsContract) :
    ∃ t, step s = .next t := by
  cases hp : s.pending with
  | nil => exact ⟨s, step_of_nil hp⟩
  | cons e es =>
    rw [step_of_cons hp]
    exact exists_deliver_eq_next _ (hs e (by simp [hp]))

/-- The edges left after a step are among those before it, so the host still keeps its contract. -/
theorem State.HostKeepsContract.of_step {s t : State} (hs : s.HostKeepsContract)
    (h : step s = .next t) : t.HostKeepsContract := fun e he =>
  hs e (List.mem_of_mem_tail (step_next_pending h ▸ he))

/-- Settles O28 (R98), by induction on the number of steps: the contract gives the first step, and
still holds for the rest. -/
theorem keptContractNeverStops : Obligations.KeptContractNeverStops := by
  unfold Obligations.KeptContractNeverStops
  intro n
  induction n with
  | zero => exact fun s _ => ⟨s, run_zero s, rfl⟩
  | succ n ih =>
    intro s hs
    obtain ⟨u, hu⟩ := hs.exists_step_eq_next
    obtain ⟨t, hrun, hpending⟩ := ih u (hs.of_step hu)
    refine ⟨t, (run_succ_of_next n hu).trans hrun, ?_⟩
    rw [hpending, step_next_pending hu, List.drop_tail]

end Sys2Proof.Machine
end

section
/-! The reset event in a run (R105, R106): it leaves what `CLR` leaves, so the words before it are
gone. -/

namespace Sys2Proof.Machine

/-- A step at an edge with reset asserted is the reset (R105). -/
theorem step_eq_applyReset_of_rst {s : State} {e : PortEdge} {es : List PortEdge}
    (h : s.pending = e :: es) (hr : e.rst = true) :
    step s = .next (s.withPending es).applyReset :=
  (step_of_cons h).trans (deliver_of_rst _ hr)

/-- The reset event and `CLR` have the same effect (R105). -/
theorem exec_clr_eq_applyReset (s : State) : exec .clr s = .next s.applyReset := rfl

/-- Settles O2 (R105): the step is the reset of the state with its edge gone by, and so is `CLR`. -/
theorem resetEventWritesZeroLikeClr : Obligations.ResetEventWritesZeroLikeClr := by
  unfold Obligations.ResetEventWritesZeroLikeClr
  intro s e es hp hr
  have hstep := step_eq_applyReset_of_rst hp hr
  exact ⟨hstep, hstep.trans (exec_clr_eq_applyReset _).symm⟩

theorem step_of_accepted_word (w : Word) (a : Acc) (es : List PortEdge) (out : List Acc) :
    step ⟨a, acceptedEdge (encode (.word w)) :: es, out⟩ = .next ⟨wordStep a w, es, out⟩ :=
  (step_of_acceptedEdge_encode rfl).trans (exec_word w ⟨a, es, out⟩)

theorem step_of_accepted_rd (a : Acc) (es : List PortEdge) (out : List Acc) :
    step ⟨a, acceptedEdge (encode .rd) :: es, out⟩ = .next ⟨a, es, out ++ [a]⟩ :=
  (step_of_acceptedEdge_encode rfl).trans (exec_rd ⟨a, es, out⟩)

/-- Accepted words are absorbed one per step, whatever edges follow them. -/
theorem run_accepted_words (ws : List Word) (a : Acc) (es : List PortEdge) (out : List Acc) :
    Host.Core.run Sys2Proof.core ws.length
        ⟨a, ws.map (fun w => acceptedEdge (encode (.word w))) ++ es, out⟩ =
      .next ⟨absorb a ws, es, out⟩ := by
  induction ws generalizing a with
  | nil => exact run_zero _
  | cons w ws ih =>
    exact (run_succ_of_next _ (step_of_accepted_word w a _ out)).trans (ih (wordStep a w))

/-- Accepted words and an `RD` after them give the fold of the words from the accumulator. -/
theorem run_accepted_words_rd (ws : List Word) (a : Acc) (es : List PortEdge) (out : List Acc) :
    Host.Core.run Sys2Proof.core (ws.length + 1)
        ⟨a, ws.map (fun w => acceptedEdge (encode (.word w))) ++ acceptedEdge (encode .rd) :: es,
          out⟩ =
      .next ⟨absorb a ws, es, out ++ [absorb a ws]⟩ := by
  rw [run_add_of_next 1 (run_accepted_words ws a _ out)]
  exact run_succ_of_next 0 (step_of_accepted_rd _ es out)

/-- Settles O4 (R106): the words before the reset end in some `ACC`, the reset edge writes zero over
it, and the words after it are folded from there. -/
theorem resetMidTransactionDiscardsWords : Obligations.ResetMidTransactionDiscardsWords := by
  unfold Obligations.ResetMidTransactionDiscardsWords
  intro s xs ys valid ready cmd
  rw [Nat.add_assoc, run_add_of_next _ (run_accepted_words xs s.acc _ s.results), Nat.add_comm 1,
    run_succ_of_next _ (step_of_rst _ _ _ valid ready cmd)]
  exact run_accepted_words_rd ys Config.accReset s.pending s.results

end Sys2Proof.Machine
end

section
/-! The stops of a step and the events that change `ACC` (60_exceptions.md sections 1 and 2). -/

namespace Sys2Proof.Machine

/-- A reserved word that is presented stops the edge, accepted or not. -/
theorem exists_deliver_eq_refused {e : PortEdge} (s : State) (hr : e.rst = false)
    (hv : e.cmdValid = true) (hx : IsReservedWord e.cmd) :
    ∃ why, deliver e s = .refused (.reservedCommand why) := by
  obtain ⟨why, hwhy⟩ := (decode_eq_error_iff e.cmd).2 hx
  exact ⟨why, by simp [deliver, hr, hv, hwhy]⟩

/-- The next edge presents a reserved word with reset not asserted. -/
def State.PresentsReserved (s : State) : Prop :=
  ∃ e es, s.pending = e :: es ∧ e.rst = false ∧ e.cmdValid = true ∧ IsReservedWord e.cmd

theorem State.PresentsReserved.exists_step_eq_refused {s : State} (h : s.PresentsReserved) :
    ∃ why, step s = .refused (.reservedCommand why) := by
  obtain ⟨e, es, hp, hr, hv, hx⟩ := h
  rw [step_of_cons hp]
  exact exists_deliver_eq_refused _ hr hv hx

theorem exists_step_eq_next_of_not_presentsReserved {s : State} (h : ¬ s.PresentsReserved) :
    ∃ t, step s = .next t := by
  cases hp : s.pending with
  | nil => exact ⟨s, step_of_nil hp⟩
  | cons e es =>
    rw [step_of_cons hp]
    exact exists_deliver_eq_next _ fun hr hv hx => h ⟨e, es, hp, hr, hv, hx⟩

/-- Settles O27 (R44, R62): a presented reserved word is refused, and every other step goes on. -/
theorem stepStopsOnlyAtAReservedWord : Obligations.StepStopsOnlyAtAReservedWord := by
  unfold Obligations.StepStopsOnlyAtAReservedWord
  intro s
  by_cases h : s.PresentsReserved
  case pos =>
    obtain ⟨why, hwhy⟩ := h.exists_step_eq_refused
    exact ⟨.inr ⟨why, hwhy⟩, fun _ => h, fun _ => ⟨_, hwhy⟩⟩
  case neg =>
    obtain ⟨t, ht⟩ := exists_step_eq_next_of_not_presentsReserved h
    refine ⟨.inl ⟨t, ht⟩, ?_, fun h' => absurd h' h⟩
    rintro ⟨r, hr⟩
    cases ht.symm.trans hr

/-- `RD` leaves `ACC` as it is. -/
theorem ne_rd_of_exec_acc_ne {i : Instr} {s t : State} (h : exec i s = .next t)
    (hacc : t.acc ≠ s.acc) : i ≠ .rd := by
  rintro rfl
  rw [exec_rd_next_eq_present h, State.present_acc] at hacc
  exact hacc rfl

/-- The command words that are not `RD`'s, by number (R41, R44). -/
theorem toNat_of_decode_eq_ok_of_ne_rd {x : CmdWord} {i : Instr} (h : decode x = .ok i)
    (hi : i ≠ .rd) : x.toNat = 0x10000 ∨ (0x20000 ≤ x.toNat ∧ x.toNat ≤ 0x2FFFF) := by
  rw [← encode_of_decode_eq_ok h]
  cases i with
  | clr => exact .inl rfl
  | word w =>
    rw [encode_word_toNat]
    exact .inr (by omega)
  | rd => exact absurd rfl hi

/-- An edge that changes `ACC` is a reset or accepts a command other than `RD`. -/
theorem rst_or_accepted_of_deliver_acc_ne {e : PortEdge} {s t : State}
    (h : deliver e s = .next t) (hacc : t.acc ≠ s.acc) :
    e.rst = true ∨ ∃ i, e.rst = false ∧ e.cmdValid = true ∧ e.cmdReady = true ∧
      decode e.cmd = .ok i ∧ i ≠ .rd := by
  rcases deliver_cases e s with ⟨hr, _, _⟩ | ⟨_, _, _, hd⟩ | ⟨_, _, _, _, _, hd⟩ |
    ⟨_, _, _, _, _, _, hd⟩ | ⟨i, hr, hv, hi, hc, _, hd⟩
  case inl => exact .inl hr
  case inr.inl => rw [hd] at h; cases h; exact absurd rfl hacc
  case inr.inr.inl => rw [hd] at h; cases h
  case inr.inr.inr.inl => rw [hd] at h; cases h; exact absurd rfl hacc
  case inr.inr.inr.inr =>
    rw [hd] at h
    exact .inr ⟨i, hr, hv, hc, hi, ne_rd_of_exec_acc_ne h hacc⟩

/-- Settles O6 (60_exceptions.md section 1): a step with no edge left holds `ACC`, and the edges that
change it are those of `rst_or_accepted_of_deliver_acc_ne`. -/
theorem onlyClrWordAndResetChangeAcc : Obligations.OnlyClrWordAndResetChangeAcc := by
  unfold Obligations.OnlyClrWordAndResetChangeAcc
  intro s t h hacc
  rcases step_next_cases h with ⟨_, rfl⟩ | ⟨e, es, hp, hd⟩
  · exact absurd rfl hacc
  · refine ⟨e, es, hp, (rst_or_accepted_of_deliver_acc_ne hd hacc).imp_right ?_⟩
    rintro ⟨i, hr, hv, hc, hi, hne⟩
    exact ⟨hr, hv, hc, toNat_of_decode_eq_ok_of_ne_rd hi hne⟩

/-- Settles O31: before the first edge nothing is absorbed and nothing is owed (log 6). -/
theorem resetStateIsAccountedFor : Obligations.ResetStateIsAccountedFor := by
  unfold Obligations.ResetStateIsAccountedFor
  exact fun stream => ⟨[], rfl, rfl, rfl⟩

/-- Settles O48 (log 5). -/
theorem stepWithNoEdgeLeftHoldsTheState : Obligations.StepWithNoEdgeLeftHoldsTheState := by
  unfold Obligations.StepWithNoEdgeLeftHoldsTheState
  exact fun _ => step_of_nil

end Sys2Proof.Machine
end

section
/-! Words written out from the format (R40, R41). -/

namespace Sys2Proof

/-- Settles O14: the words are closed, so the decoder is evaluated on each. -/
theorem writtenOutWordsDecode : Obligations.WrittenOutWordsDecode := by
  unfold Obligations.WrittenOutWordsDecode
  exact ⟨rfl, rfl, rfl, rfl, rfl, rfl, rfl, rfl⟩

end Sys2Proof
end

section
/-! Absorption over parts of a sequence (R75, R77). -/

namespace Sys2Proof.Machine

theorem absorb_append (a : Acc) (xs ys : List Word) :
    absorb a (xs ++ ys) = absorb (absorb a xs) ys := by
  induction xs generalizing a with
  | nil => rfl
  | cons x xs ih => exact ih (wordStep a x)

theorem crc32_append (xs ys : List Word) : crc32 (xs ++ ys) = absorb (crc32 xs) ys :=
  absorb_append Config.accInit xs ys

/-- Settles O37 (R77). -/
theorem absorptionChains : Obligations.AbsorptionChains := by
  unfold Obligations.AbsorptionChains
  exact fun a xs ys => ⟨absorb_append a xs ys, crc32_append xs ys⟩

/-- Settles O35 (R75, R110): the words and the `RD` after a transaction continue from its checksum,
which its own `RD` left in `ACC`. -/
theorem prefixReadReturnsPrefixChecksum : Obligations.PrefixReadReturnsPrefixChecksum := by
  unfold Obligations.PrefixReadReturnsPrefixChecksum
  intro xs ys s
  rw [runCommands_append_of_next (runCommands_transaction xs s),
    runCommands_append_of_next (runCommands_map_word ys _),
    runCommands_cons_of_next (exec_rd _), runCommands_nil]
  simp [crc32_append]

end Sys2Proof.Machine
end

section
/-! The table over GF(2) (R13, R14): the listing is what the shift rounds generate, and a round is
linear over XOR. -/

namespace Sys2Proof.Machine

/-- The listing is the generated table, entry for entry (R117). -/
theorem tableEntries_eq_map_generatedEntry :
    tableEntries = (List.range 256).map (fun n => generatedEntry (BitVec.ofNat 8 n)) := by
  decide +kernel

theorem table_eq_generatedEntry (i : Byte) : table i = generatedEntry i := by
  have h : tableEntries[i.toNat]? = some (table i) := List.getElem?_eq_getElem _
  rw [tableEntries_eq_map_generatedEntry, List.getElem?_map, List.getElem?_range i.isLt,
    Option.map_some, BitVec.ofNat_toNat, BitVec.setWidth_eq] at h
  exact (Option.some.inj h).symm

/-- Settles O8 (R13, R14): the entry listed at an index is the one generated for it. -/
theorem tableEqualsGeneratedTable : Obligations.TableEqualsGeneratedTable := by
  unfold Obligations.TableEqualsGeneratedTable
  exact table_eq_generatedEntry

/-- What a round XORs in after its shift: `POLY` where the bit shifted out was 1. -/
def roundFeedback (out : Bool) : Acc := if out then Config.poly else 0#32

theorem roundFeedback_xor (p q : Bool) :
    roundFeedback (p ^^ q) = roundFeedback p ^^^ roundFeedback q := by
  revert p q
  decide

theorem shiftRound_eq (c : Acc) : shiftRound c = c <<< 1 ^^^ roundFeedback (c.getLsbD 31) := by
  rw [shiftRound, roundFeedback]
  split
  · rfl
  · exact (BitVec.xor_zero).symm

/-- A round is linear: the bit shifted out of an XOR is the XOR of the bits shifted out. -/
theorem shiftRound_xor (x y : Acc) : shiftRound (x ^^^ y) = shiftRound x ^^^ shiftRound y := by
  simp only [shiftRound_eq, BitVec.getLsbD_xor, BitVec.shiftLeft_xor_distrib, roundFeedback_xor]
  ac_rfl

theorem shiftRounds_xor (n : Nat) (x y : Acc) :
    shiftRounds n (x ^^^ y) = shiftRounds n x ^^^ shiftRounds n y := by
  induction n generalizing x y with
  | zero => rfl
  | succ n ih => rw [shiftRounds_succ, shiftRound_xor, ih, shiftRounds_succ, shiftRounds_succ]

theorem shiftRounds_add (m n : Nat) (c : Acc) :
    shiftRounds (m + n) c = shiftRounds n (shiftRounds m c) := by
  induction m generalizing c with
  | zero => rw [Nat.zero_add]; rfl
  | succ m ih => rw [Nat.succ_add, shiftRounds_succ, ih, shiftRounds_succ]

theorem shiftRounds_zero_acc (n : Nat) : shiftRounds n 0#32 = 0#32 := by
  simpa using shiftRounds_xor n 0#32 0#32

theorem generatedEntry_xor (i j : Byte) :
    generatedEntry (i ^^^ j) = generatedEntry i ^^^ generatedEntry j := by
  rw [generatedEntry, BitVec.setWidth_xor, BitVec.shiftLeft_xor_distrib, shiftRounds_xor]
  rfl

theorem table_zero : table 0#8 = 0#32 := rfl

theorem table_xor (i j : Byte) : table (i ^^^ j) = table i ^^^ table j := by
  simp only [table_eq_generatedEntry, generatedEntry_xor]

/-- Settles O9 (10_state.md section 3): the generated entries are eight linear rounds of the index. -/
theorem tableIsLinearOverXor : Obligations.TableIsLinearOverXor := by
  unfold Obligations.TableIsLinearOverXor
  exact ⟨table_zero, table_xor⟩

/-- A number read off the entries by a linear map is different for every entry when it is zero for
entry 0 alone. -/
theorem nodup_map_tableEntries {f : Acc → Nat} (hxor : ∀ v w, f (v ^^^ w) = f v ^^^ f w)
    (hzero : ∀ i : Byte, f (generatedEntry i) = 0 → i = 0#8) : (tableEntries.map f).Nodup := by
  rw [tableEntries_eq_map_generatedEntry, List.map_map]
  refine List.nodup_range.map_on fun m hm n hn h => ?_
  have hmn : BitVec.ofNat 8 m = BitVec.ofNat 8 n := by
    refine BitVec.xor_eq_zero_iff.1 (hzero _ ?_)
    rw [generatedEntry_xor, hxor]
    exact Nat.xor_eq_zero_iff.2 h
  have hval := congrArg BitVec.toNat hmn
  rwa [BitVec.toNat_ofNat, BitVec.toNat_ofNat, Nat.mod_eq_of_lt (List.mem_range.1 hm),
    Nat.mod_eq_of_lt (List.mem_range.1 hn)] at hval

theorem nodup_topBytes : (tableEntries.map (fun v => v.toNat / 2 ^ 24)).Nodup :=
  nodup_map_tableEntries (fun v w => by rw [BitVec.toNat_xor, Nat.xor_div_two_pow])
    (by decide +kernel)

theorem nodup_lowBytes : (tableEntries.map (fun v => v.toNat % 2 ^ 8)).Nodup :=
  nodup_map_tableEntries (fun v w => by rw [BitVec.toNat_xor, Nat.xor_mod_two_pow])
    (by decide +kernel)

/-- Settles O10 (10_state.md section 3): entries with different top bytes are different, and the
named entries, the XOR and the sums are evaluated. -/
theorem tableTranscriptionChecks : Obligations.TableTranscriptionChecks := by
  unfold Obligations.TableTranscriptionChecks
  refine ⟨nodup_topBytes.of_map, tableEntries_length, rfl, rfl, rfl, ?xor, ?sum, ?quarters,
    ?weighted, nodup_topBytes, nodup_lowBytes⟩
  case xor => decide +kernel
  case sum => decide +kernel
  case quarters => decide +kernel
  case weighted => decide +kernel

end Sys2Proof.Machine
end

section
/-! The byte step over GF(2) (R55, R56): its index bit for bit, and its bit-serial
form. -/

namespace Sys2Proof.Machine

theorem tableIndex_getLsbD (a : Acc) (b : Byte) {k : Nat} (hk : k < 8) :
    (tableIndex a b).getLsbD k = (a.getLsbD (24 + k) ^^ b.getLsbD k) := by
  have hmask : (0xFF#32).getLsbD k = true := by interval_cases k <;> rfl
  simp only [tableIndex, BitVec.getLsbD_setWidth, BitVec.getLsbD_and, BitVec.getLsbD_xor,
    BitVec.getLsbD_ushiftRight, hmask, hk, show k < 32 by omega, decide_true, Bool.true_and,
    Bool.and_true]

/-- Settles O16 (R56). -/
theorem tableIndexIsTopByteXorByte : Obligations.TableIndexIsTopByteXorByte := by
  unfold Obligations.TableIndexIsTopByteXorByte
  exact fun a b _ hk => tableIndex_getLsbD a b hk

/-- Where no bit is shifted out, a round is a shift. -/
theorem shiftRounds_eq_shiftLeft (n : Nat) {c : Acc}
    (h : ∀ k, 32 - n ≤ k → c.getLsbD k = false) : shiftRounds n c = c <<< n := by
  induction n generalizing c with
  | zero => simp
  | succ n ih =>
    have hround : shiftRound c = c <<< 1 := by
      rw [shiftRound, h 31 (by omega), if_neg Bool.false_ne_true]
    rw [shiftRounds_succ, hround, ih, ← BitVec.shiftLeft_add, Nat.add_comm]
    intro k hk
    rw [BitVec.getLsbD_shiftLeft]
    by_cases hk0 : k < 1
    · simp [hk0]
    · simp [h (k - 1) (by omega)]

/-- The 24 low bits of an accumulator, the top byte cleared. -/
def lowBits (a : Acc) : Acc := a <<< 8 >>> 8

theorem lowBits_getLsbD (a : Acc) (k : Nat) :
    (lowBits a).getLsbD k = (decide (k < 24) && a.getLsbD k) := by
  simp [lowBits, show 8 + k < 32 ↔ k < 24 by omega]

theorem lowBits_shiftLeft_eight (a : Acc) : lowBits a <<< 8 = a <<< 8 := by
  refine BitVec.eq_of_getLsbD_eq fun k hk => ?_
  simp only [BitVec.getLsbD_shiftLeft, lowBits_getLsbD, show k - 8 < 24 by omega, decide_true,
    Bool.true_and]

/-- An accumulator with a byte XORed into its top is the table index at the top of its low bits. -/
theorem xor_byte_eq_tableIndex_xor_lowBits (a : Acc) (b : Byte) :
    a ^^^ (b.setWidth 32 <<< 24) = ((tableIndex a b).setWidth 32 <<< 24) ^^^ lowBits a := by
  refine BitVec.eq_of_getLsbD_eq fun k hk => ?_
  simp only [BitVec.getLsbD_xor, BitVec.getLsbD_shiftLeft, BitVec.getLsbD_setWidth,
    lowBits_getLsbD, hk, decide_true, Bool.true_and]
  by_cases hk24 : k < 24
  · simp [hk24]
  · simp [hk24, tableIndex_getLsbD a b (show k - 24 < 8 by omega), show 24 + (k - 24) = k by omega,
      show k - 24 < 32 by omega]

/-- The eight rounds turn the index into its table entry and shift the other bits (G3). -/
theorem byteStep_eq_bitSerialStep (a : Acc) (b : Byte) : byteStep a b = bitSerialStep a b := by
  have hlow : shiftRounds 8 (lowBits a) = a <<< 8 := by
    rw [shiftRounds_eq_shiftLeft, lowBits_shiftLeft_eight]
    intro k hk
    rw [lowBits_getLsbD, decide_eq_false (by omega), Bool.false_and]
  rw [bitSerialStep, xor_byte_eq_tableIndex_xor_lowBits, shiftRounds_xor, hlow, byteStep,
    table_eq_generatedEntry, BitVec.xor_comm]
  rfl

/-- Settles O17 (G3). -/
theorem byteStepIsBitSerial : Obligations.ByteStepIsBitSerial := by
  unfold Obligations.ByteStepIsBitSerial
  exact byteStep_eq_bitSerialStep

end Sys2Proof.Machine
end

section
/-! The word step is linear over XOR, and so is the checksum (R76, R78). -/

namespace Sys2Proof.Machine

theorem byteStep_eq_shiftRounds (a : Acc) (b : Byte) :
    byteStep a b = shiftRounds 8 (a ^^^ (b.setWidth 32 <<< 24)) := byteStep_eq_bitSerialStep a b

theorem byteStep_xor (a a' : Acc) (b b' : Byte) :
    byteStep (a ^^^ a') (b ^^^ b') = byteStep a b ^^^ byteStep a' b' := by
  simp only [byteStep_eq_shiftRounds, BitVec.setWidth_xor, BitVec.shiftLeft_xor_distrib,
    shiftRounds_xor]
  ac_rfl

theorem lo_xor (w w' : Word) : lo (w ^^^ w') = lo w ^^^ lo w' := BitVec.extractLsb'_xor

theorem hi_xor (w w' : Word) : hi (w ^^^ w') = hi w ^^^ hi w' := BitVec.extractLsb'_xor

theorem wordStep_xor (a a' : Acc) (w w' : Word) :
    wordStep (a ^^^ a') (w ^^^ w') = wordStep a w ^^^ wordStep a' w' := by
  simp only [wordStep, lo_xor, hi_xor, byteStep_xor]

theorem absorb_zipWith_xor {xs ys : List Word} (h : xs.length = ys.length) (a a' : Acc) :
    absorb (a ^^^ a') (List.zipWith (· ^^^ ·) xs ys) = absorb a xs ^^^ absorb a' ys := by
  induction xs generalizing ys a a' with
  | nil =>
    obtain rfl : ys = [] := List.eq_nil_of_length_eq_zero h.symm
    rfl
  | cons x xs ih =>
    cases ys with
    | nil => exact absurd h (Nat.succ_ne_zero _)
    | cons y ys =>
      rw [List.zipWith_cons_cons, absorb_cons, wordStep_xor]
      exact ih (Nat.succ.inj h) _ _

/-- Settles O38 (R78): the fold starts from zero, which is zero XOR zero. -/
theorem checksumIsLinearOverXor : Obligations.ChecksumIsLinearOverXor := by
  unfold Obligations.ChecksumIsLinearOverXor
  exact fun xs ys h => absorb_zipWith_xor h Config.accInit Config.accInit

theorem wordStep_zero : wordStep 0#32 0x0000#16 = 0#32 := rfl

theorem crc32_replicate_zero (k : Nat) : crc32 (List.replicate k 0x0000#16) = 0#32 := by
  induction k with
  | zero => rfl
  | succ k ih => rw [List.replicate_succ', crc32, absorb_snoc, ← crc32, ih, wordStep_zero]

/-- Settles O36 (R76): zero words leave the accumulator at the zero it starts from. -/
theorem leadingZeroWordsAreInvisible : Obligations.LeadingZeroWordsAreInvisible := by
  unfold Obligations.LeadingZeroWordsAreInvisible
  intro k ws
  refine ⟨?_, crc32_replicate_zero k⟩
  rw [crc32_append, crc32_replicate_zero]
  rfl

end Sys2Proof.Machine
end

section
/-! The shift rounds are a bijection, and so is the byte step (10_state.md section 2). -/

namespace Sys2Proof.Machine

/-- Bit 0 after a round tells whether `POLY` was XORed in, so nothing but zero goes to zero. -/
theorem eq_zero_of_shiftRound_eq_zero {c : Acc} (h : shiftRound c = 0#32) : c = 0#32 := by
  have hbit0 : (shiftRound c).getLsbD 0 = c.getLsbD 31 := by
    rw [shiftRound_eq]
    cases c.getLsbD 31 <;> simp [roundFeedback, Config.poly]
  have htop : c.getLsbD 31 = false := by rw [← hbit0, h]; rfl
  have hshift : c <<< 1 = 0#32 := by
    rwa [shiftRound, htop, if_neg Bool.false_ne_true] at h
  refine BitVec.eq_of_getLsbD_eq fun k hk => ?_
  by_cases hk31 : k = 31
  · rw [hk31, htop]; rfl
  · have hbit := congrArg (BitVec.getLsbD · (k + 1)) hshift
    simpa [show k + 1 < 32 by omega, ← BitVec.getLsbD_eq_getElem] using hbit

theorem eq_zero_of_shiftRounds_eq_zero {n : Nat} {c : Acc} (h : shiftRounds n c = 0#32) :
    c = 0#32 := by
  induction n generalizing c with
  | zero => exact h
  | succ n ih => exact eq_zero_of_shiftRound_eq_zero (ih h)

theorem shiftRounds_injective (n : Nat) : Function.Injective (shiftRounds n) := by
  intro x y h
  refine BitVec.xor_eq_zero_iff.1 (eq_zero_of_shiftRounds_eq_zero (n := n) ?_)
  rw [shiftRounds_xor, h, BitVec.xor_self]

theorem shiftRounds_bijective (n : Nat) : Function.Bijective (shiftRounds n) :=
  Finite.injective_iff_bijective.1 (shiftRounds_injective n)

theorem byteStep_injective (b : Byte) : Function.Injective (fun a : Acc => byteStep a b) := by
  intro a a' h
  simp only [byteStep_eq_shiftRounds] at h
  exact (BitVec.xor_left_inj _).1 (shiftRounds_injective 8 h)

/-- Settles O18 (10_state.md section 2): an injective map of the 32-bit values is surjective too. -/
theorem byteStepIsBijective : Obligations.ByteStepIsBijective := by
  unfold Obligations.ByteStepIsBijective
  exact fun b => Finite.injective_iff_bijective.1 (byteStep_injective b)

end Sys2Proof.Machine
end

section
/-! Two words fill the accumulator: their four bytes in stream order are XORed into it and 32 rounds
follow (10_state.md section 2). -/

namespace Sys2Proof.Machine

/-- A word with its two bytes in stream order, the low byte of the operand first (R26). -/
def byteSwap (w : Word) : Word := lo w ++ hi w

theorem hi_append_lo (w : Word) : hi w ++ lo w = w := by
  rw [hi, lo, BitVec.extractLsb'_append_extractLsb'_eq_extractLsb' (by rfl)]
  exact BitVec.extractLsb'_eq_self

theorem byteSwap_byteSwap (w : Word) : byteSwap (byteSwap w) = w := by
  have hlo : lo (byteSwap w) = hi w := BitVec.extractLsb'_append_eq_right
  have hhi : hi (byteSwap w) = lo w := BitVec.extractLsb'_append_eq_left
  rw [byteSwap, hlo, hhi, hi_append_lo]

/-- Putting one bit vector before another is shifting it past the other. -/
theorem append_eq_shiftLeft_xor {m n : Nat} (k : Nat) (x : BitVec m) (y : BitVec n) :
    (x ++ y).setWidth k = x.setWidth k <<< n ^^^ y.setWidth k := by
  refine BitVec.eq_of_getLsbD_eq fun i hi => ?_
  simp only [BitVec.getLsbD_setWidth, BitVec.getLsbD_append, BitVec.getLsbD_xor,
    BitVec.getLsbD_shiftLeft, hi, decide_true, Bool.true_and]
  by_cases hin : i < n
  · simp [hin]
  · simp [hin, show i - n < k by omega, BitVec.getLsbD_of_ge y i (by omega)]

/-- A byte that is absorbed after `n` rounds may be XORed in before them, that much further down. -/
theorem byteStep_shiftRounds {n : Nat} (hn : n ≤ 24) (x : Acc) (b : Byte) :
    byteStep (shiftRounds n x) b =
      shiftRounds (n + 8) (x ^^^ (b.setWidth 32 <<< (24 - n))) := by
  have hbyte : shiftRounds n (b.setWidth 32 <<< (24 - n)) = b.setWidth 32 <<< 24 := by
    rw [shiftRounds_eq_shiftLeft, ← BitVec.shiftLeft_add, Nat.sub_add_cancel hn]
    intro k hk
    simp [BitVec.getLsbD_of_ge b (k - (24 - n)) (by omega)]
  rw [byteStep_eq_shiftRounds, shiftRounds_add, shiftRounds_xor n, hbyte]

/-- A word that is absorbed after `n` rounds may be XORed in before them, its bytes in stream order. -/
theorem wordStep_shiftRounds {n : Nat} (hn : n ≤ 16) (x : Acc) (w : Word) :
    wordStep (shiftRounds n x) w =
      shiftRounds (n + 16) (x ^^^ ((byteSwap w).setWidth 32 <<< (16 - n))) := by
  have hlo : 24 - n = 8 + (16 - n) := by omega
  rw [wordStep, byteStep_shiftRounds (by omega), byteStep_shiftRounds (by omega), byteSwap,
    append_eq_shiftLeft_xor, BitVec.shiftLeft_xor_distrib, ← BitVec.shiftLeft_add,
    BitVec.xor_assoc, hlo, show 24 - (n + 8) = 16 - n by omega]

theorem absorb_pair (a : Acc) (w₀ w₁ : Word) :
    absorb a [w₀, w₁] = shiftRounds 32 (a ^^^ (byteSwap w₀ ++ byteSwap w₁)) := by
  have happend := append_eq_shiftLeft_xor 32 (byteSwap w₀) (byteSwap w₁)
  rw [BitVec.setWidth_eq] at happend
  have hfirst : wordStep a w₀ = shiftRounds 16 (a ^^^ (byteSwap w₀).setWidth 32 <<< 16) :=
    wordStep_shiftRounds (n := 0) (by decide) a w₀
  rw [happend, absorb_cons, absorb_cons, absorb_nil, hfirst, wordStep_shiftRounds (by decide),
    BitVec.xor_assoc, Nat.sub_self, BitVec.shiftLeft_zero]

/-- The first of the two words that hold the bytes of a value, most significant first. -/
def firstWord (v : Acc) : Word := byteSwap (v.extractLsb' 16 16)

/-- The second of those two words. -/
def secondWord (v : Acc) : Word := byteSwap (v.extractLsb' 0 16)

theorem byteSwap_append_eq_iff (w₀ w₁ : Word) (v : Acc) :
    byteSwap w₀ ++ byteSwap w₁ = v ↔ w₀ = firstWord v ∧ w₁ = secondWord v := by
  constructor
  · rintro rfl
    rw [firstWord, secondWord, BitVec.extractLsb'_append_eq_left, BitVec.extractLsb'_append_eq_right]
    exact ⟨(byteSwap_byteSwap w₀).symm, (byteSwap_byteSwap w₁).symm⟩
  · rintro ⟨rfl, rfl⟩
    rw [firstWord, secondWord, byteSwap_byteSwap, byteSwap_byteSwap,
      BitVec.extractLsb'_append_extractLsb'_eq_extractLsb' (by rfl)]
    exact BitVec.extractLsb'_eq_self

/-- A value absorbed from itself, its most significant byte first, leaves zero. -/
theorem absorb_own_words (a : Acc) : absorb a [firstWord a, secondWord a] = 0#32 := by
  rw [absorb_pair, (byteSwap_append_eq_iff _ _ a).2 ⟨rfl, rfl⟩, BitVec.xor_self,
    shiftRounds_zero_acc]

theorem setWidth_or_shiftLeft_eq_append (b c : Byte) :
    b.setWidth 16 ||| c.setWidth 16 <<< 8 = c ++ b := by
  refine BitVec.eq_of_getLsbD_eq fun i hi => ?_
  simp only [BitVec.getLsbD_or, BitVec.getLsbD_append, BitVec.getLsbD_shiftLeft,
    BitVec.getLsbD_setWidth, hi, decide_true, Bool.true_and]
  by_cases hi8 : i < 8
  · simp [hi8]
  · simp [hi8, show i - 8 < 16 by omega, BitVec.getLsbD_of_ge b i (by omega)]

/-- A part of a part of a bit vector, where it lies in that part. -/
theorem extractLsb'_extractLsb'_of_add_le {n start len start' len' : Nat} (x : BitVec n)
    (h : start' + len' ≤ len) :
    (x.extractLsb' start len).extractLsb' start' len' = x.extractLsb' (start + start') len' := by
  refine BitVec.eq_of_getLsbD_eq fun i hi => ?_
  simp only [BitVec.getLsbD_extractLsb', hi, show start' + i < len by omega, decide_true,
    Bool.true_and, Nat.add_assoc]

/-- A half of a value, byte-swapped, as its two bytes put together. -/
theorem byteSwap_extractLsb' (v : Acc) (start : Nat) :
    byteSwap (v.extractLsb' start 16) =
      (v.extractLsb' (start + 8) 8).setWidth 16 ||| (v.extractLsb' start 8).setWidth 16 <<< 8 := by
  rw [setWidth_or_shiftLeft_eq_append, byteSwap, lo, hi,
    extractLsb'_extractLsb'_of_add_le v (by decide), extractLsb'_extractLsb'_of_add_le v (by decide)]
  rfl

/-- Settles O39 (G4): the appended words are the checksum's own. -/
theorem appendingTheChecksumGivesZero : Obligations.AppendingTheChecksumGivesZero := by
  unfold Obligations.AppendingTheChecksumGivesZero
  intro ws
  have hwords := absorb_own_words (crc32 ws)
  rw [firstWord, secondWord, byteSwap_extractLsb', byteSwap_extractLsb'] at hwords
  rw [crc32_append]
  exact hwords

theorem crc32_pair_eq_iff (w₀ w₁ : Word) (u : Acc) :
    crc32 [w₀, w₁] = shiftRounds 32 u ↔ w₀ = firstWord u ∧ w₁ = secondWord u := by
  have hzero : Config.accInit ^^^ (byteSwap w₀ ++ byteSwap w₁) = byteSwap w₀ ++ byteSwap w₁ :=
    BitVec.zero_xor
  rw [crc32, absorb_pair, hzero, (shiftRounds_injective 32).eq_iff, byteSwap_append_eq_iff]

theorem runCommands_clr_pair_eq_iff (w₀ w₁ : Word) (s : State) (v : Acc) :
    runCommands [.clr, .word w₀, .word w₁] s = .next ⟨v, s.pending, s.results⟩ ↔
      crc32 [w₀, w₁] = v := by
  have hrun : runCommands [.clr, .word w₀, .word w₁] s = .next (s.setAcc (crc32 [w₀, w₁])) := rfl
  rw [hrun, State.setAcc]
  constructor
  · intro h
    cases h
    rfl
  · rintro rfl
    rfl

/-- Settles O19 (10_state.md section 2): exactly one value is taken to `v` by 32 rounds, and exactly
one pair of words has that value for its bytes. -/
theorem everyAccIsReachedByOneTwoWordSequence :
    Obligations.EveryAccIsReachedByOneTwoWordSequence := by
  unfold Obligations.EveryAccIsReachedByOneTwoWordSequence
  intro s v
  obtain ⟨u, rfl⟩ := (shiftRounds_bijective 32).surjective v
  simp only [runCommands_clr_pair_eq_iff, crc32_pair_eq_iff]
  exact ⟨(firstWord u, secondWord u), ⟨rfl, rfl⟩, fun p hp => Prod.ext hp.1 hp.2⟩

end Sys2Proof.Machine
end

section
/-! The checksum as a polynomial remainder over GF(2) (R2, R13): a round is multiplication by `x`
modulo the generator polynomial. -/

namespace Sys2Proof.Machine

open Polynomial

/-- A bit vector as a polynomial over GF(2), bit `k` being the coefficient of `x^k`. -/
noncomputable def bitsPoly {n : Nat} (v : BitVec n) : (ZMod 2)[X] :=
  ∑ k ∈ Finset.range n, if v.getLsbD k then X ^ k else 0

/-- The generator polynomial: `POLY` and its leading term (R2). -/
noncomputable def generatorPoly : (ZMod 2)[X] := X ^ 32 + bitsPoly Config.poly

/-- One more byte of a message, read as a polynomial. -/
noncomputable def appendByte (m : (ZMod 2)[X]) (b : Byte) : (ZMod 2)[X] := m * X ^ 8 + bitsPoly b

theorem bitsPoly_zero (n : Nat) : bitsPoly (0#n) = 0 := by simp [bitsPoly]

theorem bitsPoly_xor {n : Nat} (v w : BitVec n) :
    bitsPoly (v ^^^ w) = bitsPoly v + bitsPoly w := by
  rw [bitsPoly, bitsPoly, bitsPoly, ← Finset.sum_add_distrib]
  refine Finset.sum_congr rfl fun k _ => ?_
  rw [BitVec.getLsbD_xor]
  cases v.getLsbD k <;> cases w.getLsbD k <;> simp [CharTwo.add_self_eq_zero]

theorem bitsPoly_degree_lt {n : Nat} (v : BitVec n) : (bitsPoly v).degree < n := by
  rw [← mem_degreeLT]
  refine Submodule.sum_mem _ fun k hk => ?_
  split
  · rw [mem_degreeLT, degree_X_pow]
    exact_mod_cast Finset.mem_range.1 hk
  · exact Submodule.zero_mem _

theorem generatorPoly_monic : generatorPoly.Monic := monic_X_pow_add (bitsPoly_degree_lt _)

theorem generatorPoly_degree : generatorPoly.degree = 32 := by
  have hlt : (bitsPoly Config.poly).degree < (X ^ 32 : (ZMod 2)[X]).degree := by
    rw [degree_X_pow]
    exact bitsPoly_degree_lt _
  rw [generatorPoly, degree_add_eq_left_of_degree_lt hlt]
  exact degree_X_pow 32

/-- The bits of `POLY` and its leading term are the polynomial as R2 writes it. -/
theorem generatorPoly_eq_sum :
    generatorPoly = ([32, 26, 23, 22, 16, 12, 11, 10, 8, 7, 5, 4, 2, 1, 0].map
      (fun k => (X : (ZMod 2)[X]) ^ k)).sum := by
  simp only [generatorPoly, bitsPoly, Config.poly, BitVec.ofNat_eq_ofNat, Finset.sum_range_succ,
    Finset.sum_range_zero, Nat.reduceLT, BitVec.getLsbD_eq_getElem, BitVec.reduceGetElem,
    ↓reduceIte, Bool.false_eq_true, List.map_cons, List.map_nil, List.sum_cons, List.sum_nil]
  ring

/-- Bits put above `k` zero bits are multiplied by `x^k`. -/
theorem bitsPoly_setWidth_shiftLeft {k m n : Nat} (h : k + m = n) (b : BitVec m) :
    bitsPoly (b.setWidth n <<< k) = bitsPoly b * X ^ k := by
  subst h
  have hlow : ∀ i ∈ Finset.range k,
      (if (b.setWidth (k + m) <<< k).getLsbD i then (X : (ZMod 2)[X]) ^ i else 0) = 0 := by
    intro i hi
    simp [Finset.mem_range.1 hi]
  rw [bitsPoly, Finset.sum_range_add, Finset.sum_eq_zero hlow, zero_add, bitsPoly, Finset.sum_mul]
  refine Finset.sum_congr rfl fun i hi => ?_
  have hbit : (b.setWidth (k + m) <<< k).getLsbD (k + i) = b.getLsbD i := by
    simp [Finset.mem_range.1 hi]
  rw [hbit, ite_mul, zero_mul, pow_add, mul_comm]

/-- Shifting left by one is multiplying by `x`, but for the bit shifted out. -/
theorem bitsPoly_shiftLeft_one {n : Nat} (c : BitVec (n + 1)) :
    X * bitsPoly c = bitsPoly (c <<< 1) + if c.getLsbD n then X ^ (n + 1) else 0 := by
  have hlow : ∀ i ∈ Finset.range n,
      (if (c <<< 1).getLsbD (i + 1) then (X : (ZMod 2)[X]) ^ (i + 1) else 0) =
        X * if c.getLsbD i then X ^ i else 0 := by
    intro i hi
    have hbit : (c <<< 1).getLsbD (i + 1) = c.getLsbD i := by
      simp [Finset.mem_range.1 hi, -BitVec.getLsbD_eq_getElem]
    rw [hbit, mul_ite, mul_zero, pow_succ']
  have hbit0 : (c <<< 1).getLsbD 0 = false := by simp
  rw [bitsPoly, bitsPoly, Finset.sum_range_succ, Finset.sum_range_succ', Finset.sum_congr rfl hlow,
    hbit0, if_neg Bool.false_ne_true, add_zero, mul_add, Finset.mul_sum, mul_ite, mul_zero, pow_succ']

/-- What a round feeds back stands for the bit shifted out, modulo the generator polynomial. -/
theorem bitsPoly_roundFeedback (out : Bool) :
    bitsPoly (roundFeedback out) = (if out then X ^ 32 else 0) + if out then generatorPoly else 0 := by
  cases out with
  | false => simp [roundFeedback, bitsPoly_zero]
  | true =>
    rw [if_pos rfl, if_pos rfl, generatorPoly, ← add_assoc, CharTwo.add_self_eq_zero, zero_add]
    rfl

/-- A shift round is multiplication by `x` modulo the generator polynomial. -/
theorem mk_bitsPoly_shiftRound (c : Acc) :
    AdjoinRoot.mk generatorPoly (bitsPoly (shiftRound c)) =
      AdjoinRoot.mk generatorPoly (X * bitsPoly c) := by
  have hgenerator : AdjoinRoot.mk generatorPoly (if c.getLsbD 31 then generatorPoly else 0) = 0 := by
    split
    · exact AdjoinRoot.mk_self
    · exact map_zero _
  rw [shiftRound_eq, bitsPoly_xor, bitsPoly_roundFeedback, bitsPoly_shiftLeft_one, ← add_assoc,
    map_add, hgenerator, add_zero]

theorem mk_bitsPoly_shiftRounds (n : Nat) (c : Acc) :
    AdjoinRoot.mk generatorPoly (bitsPoly (shiftRounds n c)) =
      AdjoinRoot.mk generatorPoly (bitsPoly c * X ^ n) := by
  induction n generalizing c with
  | zero => rw [shiftRounds_zero, pow_zero, mul_one]
  | succ n ih =>
    rw [shiftRounds_succ, ih, map_mul, mk_bitsPoly_shiftRound, ← map_mul, pow_succ', ← mul_assoc,
      mul_comm X]

theorem mk_bitsPoly_byteStep (a : Acc) (b : Byte) :
    AdjoinRoot.mk generatorPoly (bitsPoly (byteStep a b)) =
      AdjoinRoot.mk generatorPoly (bitsPoly a * X ^ 8 + bitsPoly b * X ^ 32) := by
  rw [byteStep_eq_shiftRounds, mk_bitsPoly_shiftRounds, bitsPoly_xor,
    bitsPoly_setWidth_shiftLeft (by rfl), add_mul, mul_assoc, ← pow_add]

/-- The bytes absorbed are the bytes appended to the message, times `x^32`. -/
theorem mk_bitsPoly_foldl_byteStep (bs : List Byte) {a : Acc} {m : (ZMod 2)[X]}
    (h : AdjoinRoot.mk generatorPoly (bitsPoly a) = AdjoinRoot.mk generatorPoly (m * X ^ 32)) :
    AdjoinRoot.mk generatorPoly (bitsPoly (bs.foldl byteStep a)) =
      AdjoinRoot.mk generatorPoly (bs.foldl appendByte m * X ^ 32) := by
  induction bs generalizing a m with
  | nil => exact h
  | cons b bs ih =>
    refine ih ?_
    rw [mk_bitsPoly_byteStep, map_add, map_mul, h, ← map_mul, ← map_add, appendByte, add_mul,
      mul_right_comm]

/-- A value congruent to a polynomial is its remainder, being of lower degree than the generator. -/
theorem bitsPoly_eq_modByMonic {a : Acc} {p : (ZMod 2)[X]}
    (h : AdjoinRoot.mk generatorPoly (bitsPoly a) = AdjoinRoot.mk generatorPoly p) :
    bitsPoly a = p %ₘ generatorPoly := by
  rw [← modByMonic_eq_of_dvd_sub generatorPoly_monic (AdjoinRoot.mk_eq_mk.1 h)]
  refine ((modByMonic_eq_self_iff generatorPoly_monic).2 ?_).symm
  rw [generatorPoly_degree]
  exact bitsPoly_degree_lt a

/-- Settles O40 (G1): the fold starts from zero, the remainder of the empty message. -/
theorem checksumIsPolynomialRemainder : Obligations.ChecksumIsPolynomialRemainder := by
  unfold Obligations.ChecksumIsPolynomialRemainder
  intro ws
  have hstart : AdjoinRoot.mk generatorPoly (bitsPoly Config.accInit) =
      AdjoinRoot.mk generatorPoly (0 * X ^ 32) := by
    rw [zero_mul]
    exact congrArg _ (bitsPoly_zero 32)
  rw [crc32, absorb_eq_foldl_byteStep, ← generatorPoly_eq_sum]
  exact bitsPoly_eq_modByMonic (mk_bitsPoly_foldl_byteStep (bytesOf ws) hstart)

end Sys2Proof.Machine
end

section
/-! The text of a line read back (R47, R48). -/

namespace Sys2Proof.Machine

/-- What ends the token being read and holds no token itself. -/
def EndsToken (tail : List Char) : Prop := ∀ cur ≠ [], tokensFrom cur tail = [cur]

theorem endsToken_nil : EndsToken [] := fun _ hcur => if_neg hcur

theorem endsToken_blank : EndsToken [' '] := fun cur hcur => by
  rw [tokensFrom_blank, pendingToken, if_neg hcur]
  rfl

/-- Plain characters with nothing but such an end after them are one token. -/
theorem tokensFrom_plain_end {tok tail : List Char} (hne : tok ≠ [])
    (htok : ∀ c ∈ tok, c ≠ ' ' ∧ isPunctuation c = false) (htail : EndsToken tail) :
    tokensFrom [] (tok ++ tail) = [tok] := by
  rw [tokensFrom_plain _ _ _ htok, List.nil_append, htail tok hne]

/-- The tokens of a command's text. -/
def lineTokens : Instr → List (List Char)
  | .clr => [['C', 'L', 'R']]
  | .word w => [['W', 'O', 'R', 'D'], renderValue w]
  | .rd => [['R', 'D']]

theorem tokensFrom_renderLine (i : Instr) {tail : List Char} (htail : EndsToken tail) :
    tokensFrom [] (renderLine i ++ tail) = lineTokens i := by
  cases i with
  | clr => exact tokensFrom_plain_end nofun (by simp [renderLine, isPunctuation]) htail
  | word w =>
    have hline : renderLine (.word w) ++ tail =
        ['W', 'O', 'R', 'D'] ++ ' ' :: (renderValue w ++ tail) := rfl
    rw [hline, tokensFrom_plain _ _ _ (by simp [isPunctuation]), tokensFrom_blank,
      tokensFrom_plain_end (renderValue_ne_nil w) (renderValue_plain w) htail]
    rfl
  | rd => exact tokensFrom_plain_end nofun (by simp [renderLine, isPunctuation]) htail

/-- The source command that the text of a command stands for. -/
def sourceOf : Instr → SourceCommand
  | .clr => .clr
  | .word w => .word w.toNat
  | .rd => .rd

theorem parseTokens_lineTokens (i : Instr) :
    parseTokens (lineTokens i) = .ok (some (.command (sourceOf i))) := by
  cases i with
  | clr => rfl
  | word w => simp [lineTokens, parseTokens, parseValue_renderValue, sourceOf]
  | rd => rfl

/-- The number of a word is an operand that fits, and becomes that word (R43). -/
theorem assembleCommand_sourceOf (i : Instr) : assembleCommand (sourceOf i) = .ok i := by
  cases i with
  | clr => rfl
  | word w =>
    have hfits : (SourceCommand.word w.toNat).wellFormed = true :=
      (SourceCommand.wellFormed_word_iff _).2 (by omega)
    rw [sourceOf, assembleCommand, if_pos hfits, BitVec.ofInt_natCast, BitVec.ofNat_toNat,
      BitVec.setWidth_eq]
  | rd => rfl

/-- A line that is a command's text up to its comment assembles to that command. -/
theorem assembleLine_of_stripComment {line tail : List Char} {i : Instr}
    (hline : stripComment line = renderLine i ++ tail) (htail : EndsToken tail) :
    assembleLine line = .ok [i] := by
  have hparse : parseLine line = .ok (some (.command (sourceOf i))) := by
    rw [parseLine, hline, tokensFrom_renderLine i htail, parseTokens_lineTokens]
  simp only [assembleLine, hparse, assembleSource, assembleCommand_sourceOf]

theorem renderLine_no_comment (i : Instr) : ∀ c ∈ renderLine i, (c != ';') = true := by
  cases i with
  | clr => simp [renderLine]
  | word w => exact List.forall_mem_append.2 ⟨by simp, renderValue_no_comment w⟩
  | rd => simp [renderLine]

theorem stripComment_renderLine_comment (i : Instr) (comment : List Char) :
    stripComment (renderLine i ++ ' ' :: ';' :: comment) = renderLine i ++ [' '] :=
  List.takeWhile_append_of_pos (renderLine_no_comment i)

/-- Settles O46 (R47): the tokens of a command's text, with or without a comment after it, are parsed
to the source command that assembles to it. -/
theorem assemblerReadsBackRenderedCommands : Obligations.AssemblerReadsBackRenderedCommands := by
  unfold Obligations.AssemblerReadsBackRenderedCommands
  intro i comment
  have hplain : stripComment (renderLine i) = renderLine i ++ [] :=
    (stripComment_of_no_comment (renderLine_no_comment i)).trans (List.append_nil _).symm
  exact ⟨assembleLine_of_stripComment hplain endsToken_nil,
    assembleLine_of_stripComment (stripComment_renderLine_comment i comment) endsToken_blank⟩

/-- Settles O47 (R48): a written list with an element is a sequence form whose text is read back, and
the empty list is one closed line. -/
theorem assemblerExpandsCrc32Lines : Obligations.AssemblerExpandsCrc32Lines := by
  unfold Obligations.AssemblerExpandsCrc32Lines
  intro ws
  cases ws with
  | nil => rfl
  | cons w ws => exact assemblerExpandsRepetitionsInsideBrackets (.lit (w :: ws)) rfl

end Sys2Proof.Machine
end
